-- ==== Sys2Proof/Word.lean ====
section
/-! DEFINITION. The plain types of the block: the command word, the rule number, the two-valued Bit, the eight
selectable colours, matrices and texts. -/

namespace Sys2Proof

/-- One command: a 32-bit word on the `cmd` port (30_encoding.md R60). -/
abbrev Word := BitVec 32

/-- A rule number, and the contents of the RULE register: 8 bits (00_scope.md R8, 10_state.md R21). -/
abbrev RuleNum := BitVec 8

/-- A Bit is one of exactly two values (00_scope.md R14). -/
inductive Bit where
  | dead
  | alive
deriving DecidableEq, Repr

/-- The eight selectable colours in the source's order (42_glyph_packer.md R150). -/
inductive Color where
  | black
  | red
  | green
  | yellow
  | blue
  | magenta
  | cyan
  | white
deriving DecidableEq, Repr

/-- The source's TerminalColor: a selectable colour or the reset marker (42_glyph_packer.md R152). -/
inductive TerminalColor where
  | color (c : Color)
  | resetMarker
deriving DecidableEq, Repr

/-- A matrix: rows in order, row 0 first; cells in order, the leftmost first (20_memory.md R45). -/
abbrev CellMatrix := List (List Int)

/-- A text response: Unicode scalar values, read first to last (00_scope.md R15, 20_memory.md R46).
Lean's `Char` is exactly a Unicode scalar value. -/
abbrev Text := List Char

end Sys2Proof
end

