-- ==== Sys2Proof/Syntax.lean ====
section
/-! DEFINITION. The seven commands (30_encoding.md R67), one constructor per row of the opcode table, with the
operands their words carry (R61 to R65). Seed and matrix come from ports and are not part of a command (R66). -/

namespace Sys2Proof

/-- One decoded command. -/
inductive Instr where
  /-- INIT rule (41_stepper.md R121). -/
  | init (rule : RuleNum)
  /-- STEP (41_stepper.md R123). -/
  | step
  /-- RUN n (41_stepper.md R126); `n` is a count, and what the word can carry of it is checked by `Instr.wf`. -/
  | run (n : Nat)
  /-- RTGET rule, l, c, r (40_rule_table.md R102). -/
  | rtget (rule : RuleNum) (l c r : Bit)
  /-- RENDER_ASCII (42_glyph_packer.md R160). -/
  | renderAscii
  /-- RENDER_HALF fg, bg (42_glyph_packer.md R165). -/
  | renderHalf (fg bg : Color)
  /-- RENDER_BRAILLE fg, bg (42_glyph_packer.md R172). -/
  | renderBraille (fg bg : Color)
deriving DecidableEq, Repr

end Sys2Proof
end

