-- ==== Sys2Proof/WellFormed.lean ====
section
/-! DEFINITION. Which commands a word can carry. The rule number, the neighbour Bits and the colours are in range by
their types (30_encoding.md R62, R64, R65); the generation count of RUN must fit its 28-bit field (R63). -/

namespace Sys2Proof

/-- A command that some word encodes; `N_W`, the width of RUN's count field, is 28 (00_scope.md R9). -/
def Instr.wf : Instr → Bool
  | .init _ => true
  | .step => true
  | .run n => n < 2 ^ 28
  | .rtget _ _ _ _ => true
  | .renderAscii => true
  | .renderHalf _ _ => true
  | .renderBraille _ _ => true

end Sys2Proof
end

