-- ==== Sys2Proof/Decode.lean ====
section
/-! DEFINITION. The decoder (30_encoding.md R60 to R71), total on every 32-bit word, refusing an illegal word by the
reason it is illegal; and the encoder, written from the formats of R61. -/

namespace Sys2Proof

/-- Why a word is illegal (30_encoding.md R70): the two items of its list. -/
inductive Illegal where
  /-- `OP` is `0000` or `1000` to `1111`. -/
  | reservedOpcode
  /-- `OP` is `0001` to `0111` and a field its format marks `0` is not zero. -/
  | reservedField
deriving DecidableEq, Repr

/-- A row of the opcode map (R67), with how its fields are read. -/
structure OpcodeRow where
  mnemonic : String
  mask : Word
  pattern : Word
  fields : Word → Instr

/-- The Bit a bit of a word stands for: 1 is Alive (R64). -/
def bitOfBool (b : Bool) : Bit := if b then .alive else .dead

/-- The bit of a word that stands for a Bit. -/
def boolOfBit : Bit → Bool
  | .alive => true
  | .dead => false

/-- The colour with a 3-bit index (42_glyph_packer.md R150). -/
def colorOfIndex (i : BitVec 3) : Color :=
  match i.toNat with
  | 0 => .black
  | 1 => .red
  | 2 => .green
  | 3 => .yellow
  | 4 => .blue
  | 5 => .magenta
  | 6 => .cyan
  | _ => .white

/-- The 3-bit index of a colour: its position in the list of 42_glyph_packer.md R150. -/
def colorIndex : Color → BitVec 3
  | .black => 0
  | .red => 1
  | .green => 2
  | .yellow => 3
  | .blue => 4
  | .magenta => 5
  | .cyan => 6
  | .white => 7

/-- `OP`, bits 31:28 (R60). -/
def opField (w : Word) : BitVec 4 := w.extractLsb' 28 4

/-- Format I `RULE`, bits 7:0 (R61, R62). -/
def initRuleField (w : Word) : RuleNum := w.extractLsb' 0 8

/-- Format C `N`, bits 27:0 (R61, R63). -/
def countField (w : Word) : Nat := (w.extractLsb' 0 28).toNat

/-- Format G `RULE`, bits 15:8 (R61, R62). -/
def getRuleField (w : Word) : RuleNum := w.extractLsb' 8 8

/-- Format G `PL`, `PC`, `PR`: bits 2, 1, 0 (R64). -/
def neighbourField (w : Word) (i : Nat) : Bit := bitOfBool (w.getLsbD i)

/-- Format K `FG`, bits 5:3 (R65). -/
def fgField (w : Word) : Color := colorOfIndex (w.extractLsb' 3 3)

/-- Format K `BG`, bits 2:0 (R65). -/
def bgField (w : Word) : Color := colorOfIndex (w.extractLsb' 0 3)

/-- The opcode map of R67. -/
def opcodeTable : List OpcodeRow :=
  [ ⟨"INIT", 0xFFFFFF00#32, 0x10000000#32, fun w => .init (initRuleField w)⟩,
    ⟨"STEP", 0xFFFFFFFF#32, 0x20000000#32, fun _ => .step⟩,
    ⟨"RUN", 0xF0000000#32, 0x30000000#32, fun w => .run (countField w)⟩,
    ⟨"RTGET", 0xFFFF00F8#32, 0x40000000#32,
      fun w => .rtget (getRuleField w) (neighbourField w 2) (neighbourField w 1) (neighbourField w 0)⟩,
    ⟨"RENDER_ASCII", 0xFFFFFFFF#32, 0x50000000#32, fun _ => .renderAscii⟩,
    ⟨"RENDER_HALF", 0xFFFFFFC0#32, 0x60000000#32, fun w => .renderHalf (fgField w) (bgField w)⟩,
    ⟨"RENDER_BRAILLE", 0xFFFFFFC0#32, 0x70000000#32, fun w => .renderBraille (fgField w) (bgField w)⟩ ]

/-- A word matches a row: `(word & mask) == match` (R68). -/
def rowMatches (w : Word) (r : OpcodeRow) : Bool := w &&& r.mask == r.pattern

/-- The reason a word that matches no row is illegal (R70). -/
def illegalReason (w : Word) : Illegal :=
  if opField w = 0 ∨ 8 ≤ (opField w).toNat then .reservedOpcode else .reservedField

/-- The loop of R68: the first row that matches gives the command with its fields; with no row left the word is ILLEGAL. -/
def decodeWith (w : Word) : List OpcodeRow → Except Illegal Instr
  | [] => .error (illegalReason w)
  | r :: rows => if rowMatches w r then .ok (r.fields w) else decodeWith w rows

/-- The decoder (R68), over the opcode map of R67. -/
def decode (w : Word) : Except Illegal Instr := decodeWith w opcodeTable

/-- Format N: OP and 28 zero bits (R61). -/
def formatN (op : BitVec 4) : Word := op ++ 0#28

/-- Format I: OP, 20 zero bits, RULE (R61). -/
def formatI (op : BitVec 4) (rule : RuleNum) : Word := op ++ 0#20 ++ rule

/-- Format C: OP and the 28-bit count N (R61). -/
def formatC (op : BitVec 4) (n : Nat) : Word := op ++ BitVec.ofNat 28 n

/-- Format G: OP, 12 zero bits, RULE, 5 zero bits, PL, PC, PR (R61). -/
def formatG (op : BitVec 4) (rule : RuleNum) (l c r : Bit) : Word :=
  op ++ 0#12 ++ rule ++ 0#5 ++ BitVec.ofBool (boolOfBit l) ++ BitVec.ofBool (boolOfBit c)
    ++ BitVec.ofBool (boolOfBit r)

/-- Format K: OP, 22 zero bits, FG, BG (R61). -/
def formatK (op : BitVec 4) (fg bg : Color) : Word := op ++ 0#22 ++ colorIndex fg ++ colorIndex bg

/-- The word of a command (R61, R67). A count that does not fit its field (`Instr.wf` refuses it) loses its high bits. -/
def encode : Instr → Word
  | .init rule => formatI 0b0001#4 rule
  | .step => formatN 0b0010#4
  | .run n => formatC 0b0011#4 n
  | .rtget rule l c r => formatG 0b0100#4 rule l c r
  | .renderAscii => formatN 0b0101#4
  | .renderHalf fg bg => formatK 0b0110#4 fg bg
  | .renderBraille fg bg => formatK 0b0111#4 fg bg

/-- The mnemonic of a command, as the opcode table spells it. -/
def mnemonicOf : Instr → String
  | .init _ => "INIT"
  | .step => "STEP"
  | .run _ => "RUN"
  | .rtget _ _ _ _ => "RTGET"
  | .renderAscii => "RENDER_ASCII"
  | .renderHalf _ _ => "RENDER_HALF"
  | .renderBraille _ _ => "RENDER_BRAILLE"

/-- What the decoder reads from a word of `nbits` bits numbered as the opcode table numbers them. There is one command
length, 32 bits (R60): bits above `nbits` are 0, and a longer word is no command (log entry 13). -/
def decodeTableWord (nbits w : Nat) : Option Instr :=
  if nbits ≤ 32 then
    match decode (BitVec.ofNat 32 (w % 2 ^ nbits)) with
    | .ok i => some i
    | .error _ => none
  else none

end Sys2Proof
end

