-- ==== Sys2Proof/Config.lean ====
section
/-! DEFINITION. The build parameters of a block (00_scope.md R7, R10, R11). The spec leaves them open, so a state
carries them as data that no step writes, and every statement about states holds for every build (log entry 1).
The spec leaves no value open after an instruction, so there is no free value here. -/

namespace Sys2Proof

/-- What an element port can carry (00_scope.md R10: CELL_W is an open parameter, the model's default is unbounded
integers). Whether a finite port is signed the spec does not say; both are admitted: DESIGN CHOICE, log entry 8. -/
inductive CellWidth where
  | unbounded
  | unsigned (w : Nat)
  | signed (w : Nat)
deriving DecidableEq, Repr

/-- The parameters fixed when a block is built. -/
structure Build where
  /-- `L`, the number of cells (R7: `L ≥ 1`; a build with `L = 0` is refused). -/
  L : Nat
  /-- `CELL_W` (R10). -/
  cellW : CellWidth
  /-- `MAX_ROWS` (R11); `none` is "unbounded". -/
  maxRows : Option Nat
  /-- `MAX_COLS` (R11); `none` is "unbounded". -/
  maxCols : Option Nat
deriving DecidableEq, Repr

/-- The build `State.reset` stands for: eight cells (DESIGN CHOICE, log entry 1; the spec fixes no `L`), everything
else at the model's default of R10 and R11. No statement rests on the eight. -/
def Config.build : Build :=
  { L := 8, cellW := .unbounded, maxRows := none, maxCols := none }

end Sys2Proof
end

