-- ==== Sys2Proof/Machine/State.lean ====
section
/-! DEFINITION. Everything the spec gives the block, as plain data: the three registers of 10_state.md R20, the ports
of R29, the build parameters, and the host's actions not yet taken; with the state after reset (R33). -/

namespace Sys2Proof.Machine

/-- The codes of the FAULT field (10_state.md R24). These are recorded IN the state: a command that raises one has a
next state (60_exceptions.md R201). -/
inductive FaultCode where
  /-- `00`: no fault recorded. -/
  | none
  /-- `01`: a reserved opcode or a non-zero reserved field. -/
  | illegalCmd
  /-- `10`: STEP or RUN while INIT = 0. -/
  | uninit
  /-- `11`: rule-table lookup miss; no command raises it (60_exceptions.md R206). -/
  | internal
deriving DecidableEq, Repr

/-- The STATUS register (10_state.md R23): INIT is bit 0, FAULT is bits 2:1; it has no reserved bits. -/
structure Status where
  init : Bool
  fault : FaultCode
deriving DecidableEq, Repr

/-- A response (10_state.md R31): empty, one Bit, a list of rows of 0/1 integers, or a text. -/
inductive Response where
  | unit
  | bit (b : Bit)
  | rows (rs : CellMatrix)
  | text (t : Text)
deriving DecidableEq, Repr

/-- The input ports of 10_state.md R29, with the values that stand on them. -/
structure Ports where
  cmd : Word
  seedIn : List Int
  matIn : CellMatrix
deriving DecidableEq, Repr

/-- One thing the host can do to the block (60_exceptions.md R214): reset it, or issue a command word with the
operand ports carrying the given values. -/
inductive HostAction where
  | rst
  | command (p : Ports)
deriving DecidableEq, Repr

/-- The machine's own stops.

`noValue`: raised by STEP and RUN when STATUS.INIT = 1 and yet RULE or STATE holds no value. No rule reaches such a
state (10_state.md R33: INIT writes all three together) and `BlockInv` excludes it. SAFE: the model stops instead of
inventing a value (log entry 3). -/
inductive Fault where
  | noValue
deriving DecidableEq, Repr

/-- What is rejected at the boundary (00_scope.md R17), and the host's placeholder for an unmodelled instruction.

`notModelled`: an instruction without a meaning; no arm uses it. SAFE.
`zeroLength`: any action on a block whose build has `L = 0` (R7: refused). SAFE.
`seedLength`: INIT with a seed whose length is not `L` (R7: it cannot be presented). SAFE.
`cellTooWide`: INIT or a RENDER command with an element that a port of width CELL_W cannot carry (R10). SAFE.
`matrixTooLarge`: a RENDER command with a matrix above MAX_ROWS or MAX_COLS (R11: refused). SAFE. -/
inductive Refusal where
  | notModelled (mnemonic : String)
  | zeroLength
  | seedLength
  | cellTooWide
  | matrixTooLarge
deriving DecidableEq, Repr

/-- The block and its ports. -/
structure State where
  /-- Build parameters; no step writes them (log entry 1). -/
  build : Build
  /-- STATUS (10_state.md R23). -/
  status : Status
  /-- RULE (10_state.md R21); `none` is the spec's "no value" (R33), not a missing one (log entry 2). -/
  rule : Option RuleNum
  /-- STATE, cell 0 first (10_state.md R22); `none` is the spec's "no value" (R33, log entry 2). -/
  cells : Option (List Bit)
  /-- The response of the last command (10_state.md R29, R31); `none` is "no response". -/
  rsp : Option Response
  /-- The input ports as last driven (10_state.md R29). -/
  ports : Ports
  /-- MODEL's own field: the host's actions not yet taken, oldest first (20_memory.md R51; log entry 4). -/
  pending : List HostAction
deriving DecidableEq, Repr

/-- What one step, or one command, answers. -/
abbrev Result := Host.Outcome State Fault Refusal

/-- The input ports before the host has driven them: no command word, a seed of `L` zeros, the empty matrix.
DESIGN CHOICE, log entry 5: the spec gives input ports no reset value. -/
def Ports.idle (b : Build) : Ports :=
  { cmd := 0, seedIn := List.replicate b.L 0, matIn := [] }

/-- A block of build `b` right after reset (10_state.md R33), with nothing asked of it yet. -/
def State.resetOf (b : Build) : State :=
  { build := b
    status := { init := false, fault := .none }
    rule := none
    cells := none
    rsp := none
    ports := Ports.idle b
    pending := [] }

/-- The machine right after reset. -/
def State.reset : State := State.resetOf Config.build

end Sys2Proof.Machine
end

