-- ==== Sys2Proof/Machine/Flags.lean ====
section
/-! DEFINITION. The STATUS register's fields and views (10_state.md R23, R24, R29). The block has no condition codes
beyond STATUS (R26), so this is every flag computation there is. -/

namespace Sys2Proof.Machine

/-- The 2-bit code of FAULT (10_state.md R24). -/
def faultBits : FaultCode → BitVec 2
  | .none => 0b00
  | .illegalCmd => 0b01
  | .uninit => 0b10
  | .internal => 0b11

/-- `STATUS[2:0]`: FAULT in bits 2:1, INIT in bit 0 (10_state.md R23). -/
def statusBits (st : Status) : BitVec 3 := faultBits st.fault ++ BitVec.ofBool st.init

/-- Faulted: `STATUS.FAULT ≠ NONE` (00_scope.md R17). -/
def faulted (s : State) : Bool := s.status.fault != .none

/-- Constructed: `STATUS.INIT = 1` (00_scope.md R17). -/
def constructed (s : State) : Bool := s.status.init

/-- The `status_out` port (10_state.md R29). -/
def statusOut (s : State) : BitVec 3 := statusBits s.status

end Sys2Proof.Machine
end

