-- ==== Sys2Proof/Machine/Operands.lean ====
section
/-! DEFINITION. Operands that arrive on ports (20_memory.md R41): the Alive test, the 0/1 conversion, and what the
boundary lets through (00_scope.md R7, R10, R11). -/

namespace Sys2Proof.Machine

/-- `toBit(v)`: Alive iff `v > 0` (41_stepper.md R120). -/
def toBit (v : Int) : Bit := if 0 < v then .alive else .dead

/-- `toInt(b)`: 1 for Alive, 0 for Dead (00_scope.md R13, R14). -/
def toInt : Bit → Int
  | .alive => 1
  | .dead => 0

/-- A matrix cell is lit iff it is Alive by `toBit` (42_glyph_packer.md R153). -/
def lit (v : Int) : Bool := toBit v == .alive

/-- The row of 0/1 integers that shows a generation (41_stepper.md R126; 10_state.md R30). -/
def rowOf (S : List Bit) : List Int := S.map toInt

/-- An element port of the given width carries `v` (00_scope.md R10; log entry 8). -/
def cellFits : CellWidth → Int → Bool
  | .unbounded, _ => true
  | .unsigned w, v => 0 ≤ v && v < 2 ^ w
  | .signed w, v => -(2 ^ w) ≤ 2 * v && 2 * v < 2 ^ w

/-- A size within an optional bound; no bound admits every size (00_scope.md R11). -/
def withinBound : Option Nat → Nat → Bool
  | none, _ => true
  | some m, n => n ≤ m

/-- A seed has exactly `L` elements (00_scope.md R7). -/
def seedLengthOk (b : Build) (seed : List Int) : Bool := seed.length == b.L

/-- Every element of a seed is one the port carries (00_scope.md R10). -/
def seedCellsOk (b : Build) (seed : List Int) : Bool := seed.all (cellFits b.cellW)

/-- A seed the host can present on `seed_in`. -/
def seedPresentable (b : Build) (seed : List Int) : Bool := seedLengthOk b seed && seedCellsOk b seed

/-- A matrix within MAX_ROWS and MAX_COLS, the latter bounding the length of any one row (00_scope.md R11). -/
def matrixSizeOk (b : Build) (m : CellMatrix) : Bool :=
  withinBound b.maxRows m.length && m.all fun row => withinBound b.maxCols row.length

/-- Every element of a matrix is one the port carries (00_scope.md R10). -/
def matrixCellsOk (b : Build) (m : CellMatrix) : Bool := m.all fun row => row.all (cellFits b.cellW)

/-- A matrix the host can present on `mat_in`. -/
def matrixPresentable (b : Build) (m : CellMatrix) : Bool := matrixSizeOk b m && matrixCellsOk b m

end Sys2Proof.Machine
end

