-- ==== Sys2Proof/Machine/Ops.lean ====
section
/-! DEFINITION. The operations every command is made of: giving a response, raising a fault and ignoring a command
while faulted (60_exceptions.md R201, R202), reset (70_reset_and_hazards.md R230), the register writes, the guards in
the order of 30_encoding.md R69, sampling the operand ports, and the `state_out` port. -/

namespace Sys2Proof.Machine

/-- A command completes with its one response (10_state.md R31). -/
def respond (r : Response) (s : State) : State := { s with rsp := some r }

/-- TAKING A FAULT, `raise Fault(code)` (60_exceptions.md R201): FAULT is written and nothing else; no response. -/
def raiseFault (code : FaultCode) (s : State) : State :=
  { s with status := { s.status with fault := code }, rsp := none }

/-- A command word issued while faulted has no effect and no response (60_exceptions.md R202). -/
def ignoreCommand (s : State) : State := { s with rsp := none }

/-- RESET, the only way out of a faulted state (60_exceptions.md R209; 70_reset_and_hazards.md R230): STATUS is cleared,
RULE and STATE lose their values, no response is pending. -/
def resetBlock (s : State) : State :=
  { s with status := { init := false, fault := .none }, rule := none, cells := none, rsp := none }

/-- INIT's writes: all of STATE, all of RULE, and STATUS.INIT (41_stepper.md R121). -/
def construct (rule : RuleNum) (S : List Bit) (s : State) : State :=
  { s with status := { s.status with init := true }, rule := some rule, cells := some S }

/-- One whole-vector write of STATE (41_stepper.md R123; 20_memory.md R49). -/
def writeCells (S : List Bit) (s : State) : State := { s with cells := some S }

/-- The first check of every command (30_encoding.md R69 item 1): a build with `L = 0` is refused (00_scope.md R7); a
faulted block ignores the command; otherwise the command goes on. -/
def whenReady (s : State) (k : Result) : Result :=
  if s.build.L = 0 then .refused .zeroLength
  else if faulted s then .next (ignoreCommand s)
  else k

/-- The precondition of STEP and RUN (60_exceptions.md R205): UNINIT while INIT = 0, else the command goes on with the
values of RULE and STATE. With INIT = 1 both registers hold a value in every state a rule reaches; where one does not,
the machine stops (log entry 3). -/
def whenConstructed (s : State) (k : RuleNum → List Bit → Result) : Result :=
  if constructed s then
    match s.rule, s.cells with
    | some T, some S => k T S
    | _, _ => .fault .noValue
  else .next (raiseFault .uninit s)

/-- INIT samples `seed_in` (30_encoding.md R66); the boundary refuses a seed that cannot be presented (00_scope.md R7,
R10; log entry 7). -/
def sampleSeed (s : State) (k : List Int → Result) : Result :=
  if seedLengthOk s.build s.ports.seedIn then
    if seedCellsOk s.build s.ports.seedIn then k s.ports.seedIn else .refused .cellTooWide
  else .refused .seedLength

/-- A RENDER command samples `mat_in` (30_encoding.md R66); the boundary refuses an over-size matrix (00_scope.md R11,
R10; log entry 7). -/
def sampleMatrix (s : State) (k : CellMatrix → Result) : Result :=
  if matrixSizeOk s.build s.ports.matIn then
    if matrixCellsOk s.build s.ports.matIn then k s.ports.matIn else .refused .cellTooWide
  else .refused .matrixTooLarge

/-- The `state_out` port (10_state.md R30): STATE as 0/1 when INIT = 1, no value otherwise. -/
def stateOut (s : State) : Option (List Int) := if constructed s then s.cells.map rowOf else none

end Sys2Proof.Machine
end

