-- ==== Sys2Proof/Machine/Glyph.lean ====
section
/-! DEFINITION. The glyph packer (42_glyph_packer.md): colour escapes, the three encodings, the RENDER commands, and
the bytes of a text on a byte port (20_memory.md R46). -/

namespace Sys2Proof.Machine

/-- `ESC`, U+001B. PRESUMED, log entry 9 (00_scope.md R15: general knowledge). -/
def escChar : Char := Char.ofNat 0x1B

/-- `LF`, U+000A. PRESUMED, log entry 9 (00_scope.md R15: general knowledge). -/
def lfChar : Char := Char.ofNat 0x0A

/-- LOWER HALF BLOCK, U+2584 (42_glyph_packer.md R165). -/
def halfBlock : Char := Char.ofNat 0x2584

/-- The ASCII digit of a colour: its index (42_glyph_packer.md R150, R151). PRESUMED, log entry 9. -/
def digitChar (c : Color) : Char := Char.ofNat (0x30 + (colorIndex c).toNat)

/-- `fgEsc(c)` (42_glyph_packer.md R151). -/
def fgEsc (c : Color) : Text := [escChar, '[', '3', digitChar c, 'm']

/-- `bgEsc(c)` (42_glyph_packer.md R151). -/
def bgEsc (c : Color) : Text := [escChar, '[', '4', digitChar c, 'm']

/-- `RESET` (42_glyph_packer.md R151). -/
def resetEsc : Text := [escChar, '[', '0', 'm']

/-- The (foreground, background) escape pair of a TerminalColor (42_glyph_packer.md R152); the reset marker's pair is
(RESET, RESET), which no command observes. -/
def escapePair : TerminalColor → Text × Text
  | .color c => (fgEsc c, bgEsc c)
  | .resetMarker => (resetEsc, resetEsc)

/-- One character of RENDER_ASCII (42_glyph_packer.md R160). -/
def asciiChar (v : Int) : Char := if lit v then '#' else '.'

/-- The text of RENDER_ASCII: every row, the last included, is followed by LF (42_glyph_packer.md R160). -/
def asciiText (m : CellMatrix) : Text := m.flatMap fun row => row.map asciiChar ++ [lfChar]

/-- One half-block glyph (42_glyph_packer.md R165, R166): the TOP cell selects the background escape, the BOTTOM cell
the foreground escape; a lit cell takes `fg`. -/
def halfGlyph (fg bg : Color) (top bot : Int) : Text :=
  (if lit top then bgEsc fg else bgEsc bg) ++ (if lit bot then fgEsc fg else fgEsc bg) ++ [halfBlock] ++ resetEsc

/-- One line of half-block glyphs, as wide as the shorter row, then LF (42_glyph_packer.md R165). -/
def halfLine (fg bg : Color) (top bot : List Int) : Text :=
  (List.range (min top.length bot.length)).flatMap (fun i => halfGlyph fg bg (top.getD i 0) (bot.getD i 0))
    ++ [lfChar]

/-- The text of RENDER_HALF: one line per row pair, an odd last row dropped (42_glyph_packer.md R165). -/
def halfText (fg bg : Color) (m : CellMatrix) : Text :=
  (List.range (m.length / 2)).flatMap fun k => halfLine fg bg (m.getD (2 * k) []) (m.getD (2 * k + 1) [])

/-- Braille dot weights, by row offset `dr` and column offset `dc` (42_glyph_packer.md R170). -/
def dotWeight (dr : Fin 4) (dc : Fin 2) : Nat :=
  match dr, dc with
  | 0, 0 => 0x01
  | 0, 1 => 0x08
  | 1, 0 => 0x02
  | 1, 1 => 0x10
  | 2, 0 => 0x04
  | 2, 1 => 0x20
  | 3, 0 => 0x40
  | 3, 1 => 0x80

/-- The weight of one dot of a block: its dot weight when lit, else nothing. -/
def dotValue (B : Fin 4 → Fin 2 → Int) (dr : Fin 4) (dc : Fin 2) : Nat :=
  if lit (B dr dc) then dotWeight dr dc else 0

/-- The sum of the weights of a block's lit cells (42_glyph_packer.md R171). -/
def dotSum (B : Fin 4 → Fin 2 → Int) : Nat :=
  dotValue B 0 0 + dotValue B 0 1 + dotValue B 1 0 + dotValue B 1 1
    + dotValue B 2 0 + dotValue B 2 1 + dotValue B 3 0 + dotValue B 3 1

/-- The glyph of a 4×2 block (42_glyph_packer.md R171). -/
def brailleGlyph (B : Fin 4 → Fin 2 → Int) : Char := Char.ofNat (0x2800 + dotSum B)

/-- Row `dr` of row chunk `k` (42_glyph_packer.md R172). -/
def chunkRow (m : CellMatrix) (k : Nat) (dr : Fin 4) : List Int := m.getD (4 * k + dr.val) []

/-- The width of row chunk `k`: the shortest of its four rows (42_glyph_packer.md R172). -/
def chunkWidth (m : CellMatrix) (k : Nat) : Nat :=
  min (min (chunkRow m k 0).length (chunkRow m k 1).length) (min (chunkRow m k 2).length (chunkRow m k 3).length)

/-- The 4×2 block of row chunk `k` and column chunk `j`. -/
def chunkBlock (m : CellMatrix) (k j : Nat) (dr : Fin 4) (dc : Fin 2) : Int :=
  (chunkRow m k dr).getD (2 * j + dc.val) 0

/-- One line of braille glyphs, an odd last column dropped, then LF (42_glyph_packer.md R172). -/
def brailleLine (m : CellMatrix) (k : Nat) : Text :=
  (List.range (chunkWidth m k / 2)).map (fun j => brailleGlyph (chunkBlock m k j)) ++ [lfChar]

/-- The lines of RENDER_BRAILLE: one per full row chunk, a partial last chunk dropped (42_glyph_packer.md R172). -/
def brailleLines (m : CellMatrix) : Text := (List.range (m.length / 4)).flatMap (brailleLine m)

/-- The text of RENDER_BRAILLE: the escape pair once at the start, RESET once at the end (42_glyph_packer.md R172). -/
def brailleText (fg bg : Color) (m : CellMatrix) : Text := fgEsc fg ++ bgEsc bg ++ brailleLines m ++ resetEsc

/-- RENDER_ASCII (42_glyph_packer.md R160). -/
def execRenderAscii (s : State) : Result :=
  whenReady s (sampleMatrix s fun m => .next (respond (.text (asciiText m)) s))

/-- RENDER_HALF fg, bg (42_glyph_packer.md R165). -/
def execRenderHalf (fg bg : Color) (s : State) : Result :=
  whenReady s (sampleMatrix s fun m => .next (respond (.text (halfText fg bg m)) s))

/-- RENDER_BRAILLE fg, bg (42_glyph_packer.md R172). -/
def execRenderBraille (fg bg : Color) (s : State) : Result :=
  whenReady s (sampleMatrix s fun m => .next (respond (.text (brailleText fg bg m)) s))

/-- The UTF-8 bytes of one character, first byte first. PRESUMED, log entry 10 (20_memory.md R46: UTF-8 fixes its own
byte order, general knowledge). -/
def utf8Char (c : Char) : List (BitVec 8) :=
  let n := c.toNat
  if n < 0x80 then [BitVec.ofNat 8 n]
  else if n < 0x800 then [BitVec.ofNat 8 (0xC0 + n / 0x40), BitVec.ofNat 8 (0x80 + n % 0x40)]
  else if n < 0x10000 then
    [BitVec.ofNat 8 (0xE0 + n / 0x1000), BitVec.ofNat 8 (0x80 + n / 0x40 % 0x40), BitVec.ofNat 8 (0x80 + n % 0x40)]
  else
    [BitVec.ofNat 8 (0xF0 + n / 0x40000), BitVec.ofNat 8 (0x80 + n / 0x1000 % 0x40),
      BitVec.ofNat 8 (0x80 + n / 0x40 % 0x40), BitVec.ofNat 8 (0x80 + n % 0x40)]

/-- A text on a byte port: its UTF-8 bytes in order (20_memory.md R46). -/
def textBytes (t : Text) : List (BitVec 8) := t.flatMap utf8Char

end Sys2Proof.Machine
end

