-- ==== Sys2Proof/Machine/RuleTable.lean ====
section
/-! DEFINITION. The rule-table ROM (40_rule_table.md): table derivation, lookup, and RTGET. -/

namespace Sys2Proof.Machine

/-- A Bit as a number: Alive is 1 (00_scope.md R14). -/
def bitNat (b : Bit) : Nat := (boolOfBit b).toNat

/-- The pattern index `4*left + 2*center + right` (20_memory.md R44). -/
def patternIndex (l c r : Bit) : Nat := 4 * bitNat l + 2 * bitNat c + bitNat r

/-- The entry of pattern `p`: Alive iff bit `p` of the rule number is 1 (40_rule_table.md R100; 10_state.md R21). -/
def tableEntry (rule : RuleNum) (p : Nat) : Bit := bitOfBool (rule.getLsbD p)

/-- The table of a rule: 8 entries, pattern 000 first (40_rule_table.md R100, the direct procedure). -/
def tableOf (rule : RuleNum) : List Bit := (List.range 8).map (tableEntry rule)

/-- The iterative procedure of 40_rule_table.md R100, for `k` entries: repeatedly take `r mod 2`, then `r div 2`. -/
def tableByHalving : Nat → Nat → List Bit
  | 0, _ => []
  | k + 1, r => (if r % 2 = 1 then .alive else .dead) :: tableByHalving k (r / 2)

/-- The lookup `get(table, l, c, r)` (40_rule_table.md R101), on the 8-bit register that holds the table. It never
misses: a pattern index is below 8. -/
def tableGet (rule : RuleNum) (l c r : Bit) : Bit := tableEntry rule (patternIndex l c r)

/-- RTGET rule, l, c, r (40_rule_table.md R102): one lookup; no register is read or written, INIT is not needed. -/
def execRtget (rule : RuleNum) (l c r : Bit) (s : State) : Result :=
  whenReady s (.next (respond (.bit (tableGet rule l c r)) s))

end Sys2Proof.Machine
end

