-- ==== Sys2Proof/Machine/Stepper.lean ====
section
/-! DEFINITION. The state stepper (41_stepper.md): seed conversion, the next generation, INIT, STEP and RUN. -/

namespace Sys2Proof.Machine

/-- The Bits of a seed, order and length kept (41_stepper.md R120; 20_memory.md R42). -/
def seedBits (seed : List Int) : List Bit := seed.map toBit

/-- Cell `j mod L` of a generation, `mod` the non-negative remainder (00_scope.md R12), so that position −1 is cell
`L−1` and position `L` is cell 0 (10_state.md R22). -/
def cellAt (S : List Bit) (j : Int) : Bit := S.getD (j % (S.length : Int)).toNat .dead

/-- The next generation (41_stepper.md R122): every cell from the OLD generation `S` only. -/
def nextGen (T : RuleNum) (S : List Bit) : List Bit :=
  (List.range S.length).map fun (i : Nat) =>
    tableGet T (cellAt S ((i : Int) - 1)) (cellAt S (i : Int)) (cellAt S ((i : Int) + 1))

/-- The generation `n` steps on (41_stepper.md R126). -/
def advance (T : RuleNum) : Nat → List Bit → List Bit
  | 0, S => S
  | n + 1, S => advance T n (nextGen T S)

/-- The `n` rows RUN emits: each generation is captured before it is stepped (41_stepper.md R126). -/
def capturedRows (T : RuleNum) : Nat → List Bit → CellMatrix
  | 0, _ => []
  | n + 1, S => rowOf S :: capturedRows T n (nextGen T S)

/-- INIT rule (41_stepper.md R121). -/
def execInit (rule : RuleNum) (s : State) : Result :=
  whenReady s (sampleSeed s fun seed => .next (respond .unit (construct rule (seedBits seed) s)))

/-- STEP (41_stepper.md R123): the new generation replaces the old one (R125). -/
def execStep (s : State) : Result :=
  whenReady s (whenConstructed s fun T S => .next (respond .unit (writeCells (nextGen T S) s)))

/-- RUN n (41_stepper.md R126): `n` rows and `n` steps in the one command. -/
def execRun (n : Nat) (s : State) : Result :=
  whenReady s (whenConstructed s fun T S =>
    .next (respond (.rows (capturedRows T n S)) (writeCells (advance T n S) s)))

end Sys2Proof.Machine
end

