-- ==== Sys2Proof/Machine/Dispatch.lean ====
section
/-! DEFINITION. The dispatch: one arm per command (30_encoding.md R67), each one call of the command's meaning. -/

namespace Sys2Proof.Machine

def exec (i : Instr) (s : State) : Host.Outcome State Fault Refusal :=
  match i with
  | .init rule => Sys2Proof.Machine.execInit rule s
  | .step => Sys2Proof.Machine.execStep s
  | .run n => Sys2Proof.Machine.execRun n s
  | .rtget rule l c r => Sys2Proof.Machine.execRtget rule l c r s
  | .renderAscii => Sys2Proof.Machine.execRenderAscii s
  | .renderHalf fg bg => Sys2Proof.Machine.execRenderHalf fg bg s
  | .renderBraille fg bg => Sys2Proof.Machine.execRenderBraille fg bg s

end Sys2Proof.Machine
end

