-- ==== Sys2Proof/Machine/Issue.lean ====
section
/-! DEFINITION. How the block takes one host action: the command word on the `cmd` port in the order of
30_encoding.md R69, or reset (70_reset_and_hazards.md R230). -/

namespace Sys2Proof.Machine

/-- The host issues a command: the port values stand on the ports while it executes (20_memory.md R41). -/
def latchPorts (p : Ports) (s : State) : State := { s with ports := p }

/-- The action being taken leaves the queue. -/
def dequeue (rest : List HostAction) (s : State) : State := { s with pending := rest }

/-- Executing the word on `cmd` (30_encoding.md R69): the sticky fault first, then decoding, an illegal word raising
ILLEGAL_CMD (60_exceptions.md R203), then the command with its own precondition. -/
def executeWord (s : State) : Result :=
  whenReady s <|
    match decode s.ports.cmd with
    | .error _ => .next (raiseFault .illegalCmd s)
    | .ok i => exec i s

/-- Taking one host action off the queue (60_exceptions.md R214). A build with `L = 0` is refused (00_scope.md R7). -/
def takeAction (a : HostAction) (rest : List HostAction) (s : State) : Result :=
  match a with
  | .rst => if s.build.L = 0 then .refused .zeroLength else .next (resetBlock (dequeue rest s))
  | .command p => executeWord (latchPorts p (dequeue rest s))

end Sys2Proof.Machine
end

