-- ==== Sys2Proof/Machine/Step.lean ====
section
/-! DEFINITION. One step: the oldest host action is taken (20_memory.md R51); with none waiting the block is idle and
holds its state (60_exceptions.md R213). -/

namespace Sys2Proof.Machine

def step (s : State) : Host.Outcome State Fault Refusal :=
  match s.pending with
  | [] => .next s
  | a :: rest => takeAction a rest s

/-- `s` with the host about to issue the word `w`, its operand ports carrying what they carry in `s` (log entry 13). -/
def State.withFetchWord (s : State) (nbits w : Nat) : State :=
  { s with pending := .command { s.ports with cmd := BitVec.ofNat 32 (w % 2 ^ nbits) } :: s.pending }

end Sys2Proof.Machine
end

