-- ==== Sys2Proof/Machine/Assembler.lean ====
section
/-! DEFINITION. The assembler of the command stream (30_encoding.md R72): from one line of text to the host action it
stands for. There are no pseudo-instructions (R73). Lexical details R72 leaves open are in log entry 12. -/

namespace Sys2Proof.Machine

/-- One line of assembler source, its numbers not yet checked (30_encoding.md R72). -/
inductive AsmLine where
  | init (rule : Nat) (seed : List Int)
  | step
  | run (n : Nat)
  | rtget (rule l c r : Nat)
  | renderAscii (m : CellMatrix)
  | renderHalf (fg bg : Text) (m : CellMatrix)
  | renderBraille (fg bg : Text) (m : CellMatrix)
deriving DecidableEq, Repr

/-- Why a line is refused: it does not have the form of R72, or one of the refusals R72 lists. -/
inductive AsmError where
  | badForm
  | ruleTooLarge
  | countTooLarge
  | neighbourNotABit
  | unknownColour
  | seedLength
deriving DecidableEq, Repr

/-- The lexical pieces of a line. -/
inductive Token where
  | word (cs : Text)
  | comma
  | openBracket
  | closeBracket
  | other (c : Char)
deriving DecidableEq, Repr

/-- The colour names of 30_encoding.md R72, which are the source's. -/
def colorName : Color → Text
  | .black => ['B', 'l', 'a', 'c', 'k']
  | .red => ['R', 'e', 'd']
  | .green => ['G', 'r', 'e', 'e', 'n']
  | .yellow => ['Y', 'e', 'l', 'l', 'o', 'w']
  | .blue => ['B', 'l', 'u', 'e']
  | .magenta => ['M', 'a', 'g', 'e', 'n', 't', 'a']
  | .cyan => ['C', 'y', 'a', 'n']
  | .white => ['W', 'h', 'i', 't', 'e']

/-- The eight colours. -/
def allColors : List Color := [.black, .red, .green, .yellow, .blue, .magenta, .cyan, .white]

/-- The colour a name stands for; a name outside the eight is refused (30_encoding.md R72). -/
def asmColor (name : Text) : Except AsmError Color :=
  match allColors.find? (fun c => colorName c == name) with
  | some c => .ok c
  | none => .error .unknownColour

/-- A rule number; above 255 it is refused (30_encoding.md R72). -/
def asmRule (n : Nat) : Except AsmError RuleNum :=
  if n ≤ 255 then .ok (BitVec.ofNat 8 n) else .error .ruleTooLarge

/-- A neighbour Bit; other than 0 or 1 it is refused (30_encoding.md R72). -/
def asmBit (n : Nat) : Except AsmError Bit :=
  if n = 0 then .ok .dead else if n = 1 then .ok .alive else .error .neighbourNotABit

/-- The command of a line. -/
def asmInstr : AsmLine → Except AsmError Instr
  | .init rule _ => (asmRule rule).map .init
  | .step => .ok .step
  | .run n => if n ≤ 2 ^ 28 - 1 then .ok (.run n) else .error .countTooLarge
  | .rtget rule l c r => do
      let rule ← asmRule rule
      let l ← asmBit l
      let c ← asmBit c
      let r ← asmBit r
      return .rtget rule l c r
  | .renderAscii _ => .ok .renderAscii
  | .renderHalf fg bg _ => do
      let fg ← asmColor fg
      let bg ← asmColor bg
      return .renderHalf fg bg
  | .renderBraille fg bg _ => do
      let fg ← asmColor fg
      let bg ← asmColor bg
      return .renderBraille fg bg

/-- The operand ports of a line: a seed goes to `seed_in`, a matrix to `mat_in`; a port the line does not name keeps
what it carries in `p` (30_encoding.md R66, R72). -/
def asmOperands (p : Ports) : AsmLine → Ports
  | .init _ seed => { p with seedIn := seed }
  | .step => p
  | .run _ => p
  | .rtget _ _ _ _ => p
  | .renderAscii m => { p with matIn := m }
  | .renderHalf _ _ m => { p with matIn := m }
  | .renderBraille _ _ m => { p with matIn := m }

/-- A seed list whose length is not `L` is refused (30_encoding.md R72). -/
def asmSeedOk (b : Build) : AsmLine → Bool
  | .init _ seed => seedLengthOk b seed
  | _ => true

/-- One line assembled for a block of build `b` (30_encoding.md R72): the ports as the host drives them. -/
def assemble (b : Build) (p : Ports) (line : AsmLine) : Except AsmError Ports :=
  match asmInstr line with
  | .error e => .error e
  | .ok i =>
    if asmSeedOk b line then .ok { asmOperands p line with cmd := encode i } else .error .seedLength

/-- The characters of names and numbers. -/
def wordChar (c : Char) : Bool := c.isAlphanum || c == '_' || c == '-'

/-- A character that ends a word: white space between pieces is dropped. -/
def pieceOf (c : Char) : List Token :=
  if c == ' ' || c == '\t' then []
  else if c == ',' then [.comma]
  else if c == '[' then [.openBracket]
  else if c == ']' then [.closeBracket]
  else [.other c]

/-- The word read so far, held in reverse. -/
def wordSoFar (rev : Text) : List Token := if rev.isEmpty then [] else [.word rev.reverse]

/-- The pieces of a line. -/
def lexLine (rev : Text) : List Char → List Token
  | [] => wordSoFar rev
  | c :: cs => if wordChar c then lexLine (c :: rev) cs else wordSoFar rev ++ pieceOf c ++ lexLine [] cs

/-- The value of a digit in a base up to 16. -/
def digitValue (base : Nat) (c : Char) : Option Nat :=
  let v := if c.isDigit then c.toNat - '0'.toNat
    else if 'a' ≤ c ∧ c ≤ 'f' then 10 + (c.toNat - 'a'.toNat)
    else if 'A' ≤ c ∧ c ≤ 'F' then 10 + (c.toNat - 'A'.toNat)
    else base
  if v < base then some v else none

/-- Digits in a base, most significant first. -/
def digitsValue (base acc : Nat) : List Char → Option Nat
  | [] => some acc
  | c :: cs =>
    match digitValue base c with
    | some v => digitsValue base (acc * base + v) cs
    | none => none

/-- A number: decimal, or with prefix 0x or 0b (30_encoding.md R72). -/
def numberOf : Text → Option Nat
  | [] => none
  | '0' :: 'x' :: d :: ds => digitsValue 16 0 (d :: ds)
  | '0' :: 'b' :: d :: ds => digitsValue 2 0 (d :: ds)
  | d :: ds => digitsValue 10 0 (d :: ds)

/-- An element of a seed or a matrix: a number, with a sign if negative (41_stepper.md R120; log entry 12). -/
def integerOf : Text → Option Int
  | '-' :: ds => (numberOf ds).map fun n => -(n : Int)
  | ds => (numberOf ds).map fun n => (n : Int)

/-- The elements of a non-empty list, after its opening bracket, and the pieces after its closing one. -/
def elementsOf : List Token → Option (List Int × List Token)
  | .word w :: .comma :: ts =>
    match integerOf w, elementsOf ts with
    | some v, some (vs, rest) => some (v :: vs, rest)
    | _, _ => none
  | .word w :: .closeBracket :: ts => (integerOf w).map fun v => ([v], ts)
  | _ => none

/-- A list of integers in brackets, which may be empty. -/
def listOf : List Token → Option (List Int × List Token)
  | .openBracket :: .closeBracket :: ts => some ([], ts)
  | .openBracket :: ts => elementsOf ts
  | _ => none

/-- The rows of a non-empty matrix, after its opening bracket; `fuel` bounds their number. -/
def rowsOf : Nat → List Token → Option (CellMatrix × List Token)
  | 0, _ => none
  | fuel + 1, ts =>
    match listOf ts with
    | some (row, .comma :: rest) => (rowsOf fuel rest).map fun x => (row :: x.1, x.2)
    | some (row, .closeBracket :: rest) => some ([row], rest)
    | _ => none

/-- A matrix that ends the line: rows in brackets, which may be none (42_glyph_packer.md R154). -/
def matrixOf : List Token → Option CellMatrix
  | [.openBracket, .closeBracket] => some []
  | .openBracket :: ts =>
    match rowsOf ts.length ts with
    | some (m, []) => some m
    | _ => none
  | _ => none

/-- A list of integers that ends the line. -/
def finalListOf (ts : List Token) : Option (List Int) :=
  match listOf ts with
  | some (vs, []) => some vs
  | _ => none

/-- The line a name and its operands stand for (30_encoding.md R72). -/
def lineOf (name : Text) (ts : List Token) : Option AsmLine :=
  match String.ofList name, ts with
  | "INIT", .word rule :: .comma :: ts => do return .init (← numberOf rule) (← finalListOf ts)
  | "STEP", [] => some .step
  | "RUN", [.word n] => do return .run (← numberOf n)
  | "RTGET", [.word rule, .comma, .word l, .comma, .word c, .comma, .word r] => do
      return .rtget (← numberOf rule) (← numberOf l) (← numberOf c) (← numberOf r)
  | "RENDER_ASCII", ts => do return .renderAscii (← matrixOf ts)
  | "RENDER_HALF", .word fg :: .comma :: .word bg :: ts => do return .renderHalf fg bg (← matrixOf ts)
  | "RENDER_BRAILLE", .word fg :: .comma :: .word bg :: ts => do return .renderBraille fg bg (← matrixOf ts)
  | _, _ => none

/-- One line of text. -/
def parseLine (cs : Text) : Except AsmError AsmLine :=
  match lexLine [] cs with
  | .word name :: ts =>
    match lineOf name ts with
    | some line => .ok line
    | none => .error .badForm
  | _ => .error .badForm

/-- One line of text assembled. -/
def assembleText (b : Build) (p : Ports) (cs : Text) : Except AsmError Ports :=
  match parseLine cs with
  | .error e => .error e
  | .ok line => assemble b p line

/-- The lines of a source text; one command per line (30_encoding.md R72). -/
def linesOf (rev : Text) : List Char → List Text
  | [] => [rev.reverse]
  | c :: cs => if c == '\n' then rev.reverse :: linesOf [] cs else linesOf (c :: rev) cs

/-- The host actions of assembled lines, each with the ports the line before it left. -/
def assembleLines (b : Build) (p : Ports) : List Text → Except AsmError (List HostAction)
  | [] => .ok []
  | cs :: rest =>
    if (lexLine [] cs).isEmpty then assembleLines b p rest
    else
      match assembleText b p cs with
      | .error e => .error e
      | .ok q =>
        match assembleLines b q rest with
        | .error e => .error e
        | .ok as => .ok (.command q :: as)

/-- A source text assembled into the commands the host issues, in order (30_encoding.md R72). -/
def assembleProgram (b : Build) (p : Ports) (src : Text) : Except AsmError (List HostAction) :=
  assembleLines b p (linesOf [] src)

end Sys2Proof.Machine
end

