-- ==== Sys2Proof/Safety.lean ====
section
/-! DEFINITION. The terms claims use: the invariant of the block, the conditions under which a command goes on, runs of
several steps, and the observation at the end of a command sequence (60_exceptions.md R215). -/

namespace Sys2Proof.Machine

/-- A command is looked at: the build is admitted (00_scope.md R7) and no fault is recorded (60_exceptions.md R202). -/
def Ready (s : State) : Prop := 0 < s.build.L ∧ s.status.fault = .none

/-- STEP and RUN go on: ready, INIT = 1, and the registers hold the table `T` and the generation `S`. -/
def Running (s : State) (T : RuleNum) (S : List Bit) : Prop :=
  Ready s ∧ s.status.init = true ∧ s.rule = some T ∧ s.cells = some S

/-- What a response may be beside the rest of the state: the empty response and rows come from commands that need or
make INIT = 1; rows have exactly `L` entries, each 0 or 1 (41_stepper.md R129). -/
def ResponseOk (s : State) : Response → Prop
  | .unit => s.status.init = true
  | .bit _ => True
  | .rows rs => s.status.init = true ∧ ∀ row ∈ rs, row.length = s.build.L ∧ ∀ v ∈ row, v = 0 ∨ v = 1
  | .text _ => True

/-- The invariant: what holds of the block after reset and is kept by every step. -/
structure BlockInv (s : State) : Prop where
  /-- The build is admitted (00_scope.md R7). -/
  build : 0 < s.build.L
  /-- RULE holds a value exactly when INIT = 1 (10_state.md R33). -/
  rule : s.rule.isSome = s.status.init
  /-- STATE holds a value exactly when INIT = 1 (10_state.md R33). -/
  cells : s.cells.isSome = s.status.init
  /-- STATE has `L` cells (10_state.md R22). -/
  length : ∀ S, s.cells = some S → S.length = s.build.L
  /-- A faulted block shows no response (60_exceptions.md R201, R202). -/
  quiet : s.status.fault ≠ .none → s.rsp = none
  /-- INTERNAL is never recorded (60_exceptions.md R206). -/
  noInternal : s.status.fault ≠ .internal
  /-- The response is one its command can give. -/
  response : ∀ r, s.rsp = some r → ResponseOk s r

/-- The boundary lets a host action through: nothing it carries would be refused (00_scope.md R17). -/
def Presentable (b : Build) : HostAction → Prop
  | .rst => True
  | .command p => seedPresentable b p.seedIn = true ∧ matrixPresentable b p.matIn = true

/-- The neighbours of cell `i` of `L` cells on the ring: position −1 wraps to `L−1`, position `L` to 0 (10_state.md
R22). -/
def leftOf (L i : Nat) : Nat := if i = 0 then L - 1 else i - 1

/-- See `leftOf`. -/
def rightOf (L i : Nat) : Nat := if i + 1 = L then 0 else i + 1

/-- The command `i`, `n` times in a row, on the state as it stands. -/
def execTimes (i : Instr) : Nat → State → Result
  | 0, s => .next s
  | n + 1, s =>
    match exec i s with
    | .next t => execTimes i n t
    | .fault f => .fault f
    | .refused r => .refused r

/-- `k` steps of the machine, stopping at the first fault or refusal. -/
def runFor : Nat → State → Result
  | 0, s => .next s
  | k + 1, s =>
    match step s with
    | .next t => runFor k t
    | .fault f => .fault f
    | .refused r => .refused r

/-- The responses of the next `n` steps, one per command that gave one (60_exceptions.md R215). -/
def transcript : Nat → State → List Response
  | 0, _ => []
  | n + 1, s =>
    match s.pending, step s with
    | .command _ :: _, .next t => t.rsp.toList ++ transcript n t
    | _, .next t => transcript n t
    | _, _ => []

/-- How many actions the host's queue holds up to and including its last COMMAND (60_exceptions.md R215). A reset is
outside the command stream (70_reset_and_hazards.md R230): one after the last command is not counted. A queue without a
command has no last one (log entry 18). -/
def actionsToEnd : List HostAction → Option Nat
  | [] => none
  | .rst :: rest => (actionsToEnd rest).map (· + 1)
  | .command _ :: rest => some ((actionsToEnd rest).getD 0 + 1)

/-- What is observed at the end of a command sequence (60_exceptions.md R215). -/
structure Observation where
  /-- One response per command that did not fault and was not ignored. -/
  responses : List Response
  /-- The final STATE. -/
  cells : Option (List Bit)
  /-- The final STATUS. -/
  status : Status
deriving DecidableEq, Repr

/-- The observation of the sequence that waits in `s`, at its end: the point right after the host's last command
completes (60_exceptions.md R215). `none` where that point is not reached. -/
def observation (s : State) : Option Observation :=
  match actionsToEnd s.pending with
  | none => none
  | some k =>
    match runFor k s with
    | .next t => some { responses := transcript k s, cells := t.cells, status := t.status }
    | .fault _ => none
    | .refused _ => none

/-- A good end: the sequence reaches its end, and no fault is recorded there (60_exceptions.md R202, R215). -/
def GoodEnd (s : State) : Prop := ∃ o, observation s = some o ∧ o.status.fault = .none

end Sys2Proof.Machine
end

