-- ==== Sys2Proof/Certificates/Slice0/Obligations.lean ====
section
/-! DEFINITION. The statements for the provers: what the spec's numbered rules say of this model. -/

open Sys2Proof Sys2Proof.Machine

/- ## Encoding (30_encoding.md) -/

/-- R61, R67, R68: every command a word can carry is read back whole from its own word. -/
def Obligations.DecodeOfEncodeGivesTheCommandBack : Prop :=
  ∀ i : Instr, i.wf = true → decode (encode i) = .ok i

/-- R60 to R65, R70: each legal word has one meaning, and no bit of it is dropped. -/
def Obligations.EncodeOfDecodeGivesTheWordBack : Prop :=
  ∀ (w : Word) (i : Instr), decode w = .ok i → i.wf = true ∧ encode i = w

/-- R68: decoding is total, no two rows match the same word, the rows differ in OP, every mask covers bits 31:28, and a word that matches no
row is ILLEGAL. -/
def Obligations.OpcodeRowsNeverOverlap : Prop :=
  (∀ r ∈ opcodeTable, r.mask.extractLsb' 28 4 = 0b1111#4) ∧
  (opcodeTable.map fun r => opField r.pattern).Nodup ∧
  ∀ w : Word,
    opcodeTable.Pairwise (fun r r' => ¬ (rowMatches w r = true ∧ rowMatches w r' = true)) ∧
    (∀ r ∈ opcodeTable, rowMatches w r = true → decode w = .ok (r.fields w)) ∧
    ((∀ r ∈ opcodeTable, rowMatches w r = false) → ∃ e, decode w = .error e)

/-- R70: the illegal words are exactly those of its two lists, bit fields as R61 lays them out, and executing one on a
block that is ready raises ILLEGAL_CMD: nothing reserved executes. -/
def Obligations.IllegalWordsAreExactlyTheReservedOnes : Prop :=
  (∀ w : Word, (∃ e, decode w = .error e) ↔
    (opField w = 0 ∨ 8 ≤ (opField w).toNat) ∨
    (opField w = 1 ∧ w.extractLsb' 8 20 ≠ 0) ∨
    (opField w = 2 ∧ w.extractLsb' 0 28 ≠ 0) ∨
    (opField w = 4 ∧ (w.extractLsb' 16 12 ≠ 0 ∨ w.extractLsb' 3 5 ≠ 0)) ∨
    (opField w = 5 ∧ w.extractLsb' 0 28 ≠ 0) ∨
    ((opField w = 6 ∨ opField w = 7) ∧ w.extractLsb' 6 22 ≠ 0)) ∧
  ∀ (s : State) (e : Illegal), Ready s → decode s.ports.cmd = .error e →
    executeWord s = .next { s with status := { init := s.status.init, fault := .illegalCmd }, rsp := none }

/-- Words written out from the formats of R61 and the table of R67, and the illegal word 0 of R71. -/
def Obligations.WorkedWordsDecode : Prop :=
  decode 0x1000005A#32 = .ok (.init 90) ∧
  decode 0x20000000#32 = .ok .step ∧
  decode 0x3FFFFFFF#32 = .ok (.run 268435455) ∧
  decode 0x40006E05#32 = .ok (.rtget 110 .alive .dead .alive) ∧
  decode 0x50000000#32 = .ok .renderAscii ∧
  decode 0x60000038#32 = .ok (.renderHalf .white .black) ∧
  decode 0x7000000E#32 = .ok (.renderBraille .red .cyan) ∧
  decode 0x00000000#32 = .error .reservedOpcode ∧
  decode 0x40006E08#32 = .error .reservedField

/- ## The rule-table ROM (40_rule_table.md) -/

/-- R103: the lookup gives Alive iff bit 4*b2 + 2*b1 + b0 of the rule number is 1. -/
def Obligations.LookupReadsThePatternBitOfTheRule : Prop :=
  ∀ (r : RuleNum) (b2 b1 b0 : Bit),
    tableGet r b2 b1 b0 = .alive ↔ r.toNat.testBit (4 * bitNat b2 + 2 * bitNat b1 + bitNat b0) = true

/-- R100: the table has exactly 8 entries, entry p is Alive iff bit p of the rule is 1, and the iterative procedure
gives the same table, because it reads off bits 0, 1, ... of any non-negative number in that order. -/
def Obligations.HalvingGivesTheSameTable : Prop :=
  (∀ rule : RuleNum,
    (tableOf rule).length = 8 ∧
    (∀ p, p < 8 → (tableOf rule)[p]? = some (if rule.toNat.testBit p = true then .alive else .dead)) ∧
    tableByHalving 8 rule.toNat = tableOf rule) ∧
  ∀ k n : Nat, tableByHalving k n = (List.range k).map fun p => if n.testBit p = true then .alive else .dead

/-- R101: a lookup in the table never misses, and reads the entry of the pattern index. -/
def Obligations.LookupNeverMisses : Prop :=
  ∀ (rule : RuleNum) (l c r : Bit),
    (tableOf rule)[4 * bitNat l + 2 * bitNat c + bitNat r]? = some (tableGet rule l c r)

/-- R102: RTGET answers bit 4l + 2c + r of its own rule field, changes nothing else, and needs no INIT. -/
def Obligations.RtgetAnswersOneTableEntry : Prop :=
  ∀ (rule : RuleNum) (l c r : Bit) (s : State), Ready s →
    exec (.rtget rule l c r) s = .next { s with
      rsp := some (.bit (if rule.toNat.testBit (4 * bitNat l + 2 * bitNat c + bitNat r) then .alive else .dead)) }

/- ## The state stepper (41_stepper.md) -/

/-- R120: a seed element is Alive iff it is greater than 0; 2 and 300 are Alive, 0 and every negative one is Dead. -/
def Obligations.SeedElementIsAliveIffPositive : Prop :=
  ∀ v : Int, (0 < v → toBit v = .alive) ∧ (v ≤ 0 → toBit v = .dead)

/-- R121: INIT writes all of STATE, all of RULE and STATUS.INIT, and answers the empty response, whether or not the
block was constructed before. -/
def Obligations.InitConstructsFromSeedAndRule : Prop :=
  ∀ (rule : RuleNum) (s : State), Ready s → seedPresentable s.build s.ports.seedIn = true →
    exec (.init rule) s = .next { s with
      status := { init := true, fault := .none }
      rule := some rule
      cells := some (s.ports.seedIn.map fun v => if 0 < v then .alive else .dead)
      rsp := some .unit }

/-- R128: two blocks of the same build that take the same INIT and then the same actions agree, in every response and
in STATE, after every step, whatever they held before. That the actions wait in a queue is the model's (log entry 4). -/
def Obligations.InitErasesWhatTheBlockHeld : Prop :=
  ∀ (s t : State) (p : Ports) (rest : List HostAction) (rule : RuleNum),
    Ready s → Ready t → s.build = t.build →
    s.pending = .command p :: rest → t.pending = .command p :: rest → decode p.cmd = .ok (.init rule) →
    ∀ k, runFor (k + 1) s = runFor (k + 1) t

/-- R122: cell i of the next generation is the lookup of the OLD cells i−1, i and i+1 on the ring, and the length is
kept. -/
def Obligations.NextGenerationReadsTheOldNeighbours : Prop :=
  ∀ (T : RuleNum) (S : List Bit),
    (nextGen T S).length = S.length ∧
    ∀ i, i < S.length →
      (nextGen T S)[i]? =
        some (tableGet T (S.getD (leftOf S.length i) .dead) (S.getD i .dead) (S.getD (rightOf S.length i) .dead))

/-- R124: at L = 1 both neighbours of the cell are the cell itself; at L = 2 they are the other cell; from L = 3 on the
three cells of a neighbourhood are distinct. -/
def Obligations.ShortRowsWrapLiterally : Prop :=
  (∀ (T : RuleNum) (a : Bit), nextGen T [a] = [tableGet T a a a]) ∧
  (∀ (T : RuleNum) (a b : Bit), nextGen T [a, b] = [tableGet T b a b, tableGet T a b a]) ∧
  ∀ L i : Nat, 3 ≤ L → i < L →
    ((i : Int) - 1) % (L : Int) ≠ (i : Int) ∧ ((i : Int) + 1) % (L : Int) ≠ (i : Int) ∧
    ((i : Int) - 1) % (L : Int) ≠ ((i : Int) + 1) % (L : Int)

/-- R22, R122: the automaton has no fixed edges, so rotating the row rotates the next generation with it. -/
def Obligations.RotatingTheRowRotatesTheNextGeneration : Prop :=
  ∀ (T : RuleNum) (S : List Bit) (k : Nat), nextGen T (S.rotate k) = (nextGen T S).rotate k

/-- R16: a cell's next value depends only on itself and its two neighbours on the ring. -/
def Obligations.CellDependsOnlyOnItsNeighbourhood : Prop :=
  ∀ (T : RuleNum) (S S' : List Bit) (i : Nat), S.length = S'.length → i < S.length →
    S[leftOf S.length i]? = S'[leftOf S.length i]? → S[i]? = S'[i]? →
    S[rightOf S.length i]? = S'[rightOf S.length i]? →
    (nextGen T S)[i]? = (nextGen T S')[i]?

/-- R123, R125: on a running block STEP replaces the generation by the next one and answers the empty response;
nothing else changes. -/
def Obligations.StepReplacesTheGeneration : Prop :=
  ∀ (s : State) (T : RuleNum) (S : List Bit), Running s T S →
    exec .step s = .next { s with cells := some (nextGen T S), rsp := some .unit }

/-- R123, its corner cases: rule 0 kills every cell, rule 255 makes every cell Alive, rule 204 changes none. -/
def Obligations.CornerRulesOfStep : Prop :=
  ∀ S : List Bit,
    nextGen 0 S = List.replicate S.length .dead ∧
    nextGen 255 S = List.replicate S.length .alive ∧
    nextGen 204 S = S

/-- R104, R125: under rule 90 a cell becomes left XOR right, under rule 150 left XOR centre XOR right. -/
def Obligations.RulesNinetyAndOneFiftyAreXor : Prop :=
  ∀ (S : List Bit) (i : Nat), i < S.length →
    let l := S.getD (leftOf S.length i) .dead
    let c := S.getD i .dead
    let r := S.getD (rightOf S.length i) .dead
    (nextGen 90 S)[i]? = some (bitOfBool (boolOfBit l ^^ boolOfBit r)) ∧
    (nextGen 150 S)[i]? = some (bitOfBool (boolOfBit l ^^ boolOfBit c ^^ boolOfBit r))

/-- R126: RUN n emits rows next^0 to next^(n−1), each captured before its step, and leaves next^n; nothing else
changes. n = 0 emits the empty list and leaves STATE as it was. -/
def Obligations.RunEmitsEachGenerationThenSteps : Prop :=
  ∀ (n : Nat) (s : State) (T : RuleNum) (S : List Bit), Running s T S →
    exec (.run n) s = .next { s with
      cells := some ((nextGen T)^[n] S)
      rsp := some (.rows ((List.range n).map fun k => ((nextGen T)^[k] S).map toInt)) }

/-- R127: RUN a then RUN b emits the rows of RUN a+b and leaves the same STATE, and RUN n leaves the STATE of n
STEPs. -/
def Obligations.RunsCompose : Prop :=
  (∀ (a b : Nat) (s : State) (T : RuleNum) (S : List Bit), Running s T S →
    ∃ s₁ s₂ ra rb, exec (.run a) s = .next s₁ ∧ s₁.rsp = some (.rows ra) ∧
      exec (.run b) s₁ = .next s₂ ∧ s₂.rsp = some (.rows rb) ∧
      exec (.run (a + b)) s = .next { s₂ with rsp := some (.rows (ra ++ rb)) }) ∧
  ∀ (n : Nat) (s : State) (T : RuleNum) (S : List Bit), Running s T S →
    ∃ t u, execTimes .step n s = .next t ∧ exec (.run n) s = .next u ∧ u.cells = t.cells

/-- R129: the first row of a RUN right after INIT is the converted seed; every RUN emits exactly n rows, each of
exactly L entries 0 or 1. -/
def Obligations.FirstRowAndShapeOfRunRows : Prop :=
  (∀ (rule : RuleNum) (n : Nat) (s : State), Ready s → seedPresentable s.build s.ports.seedIn = true →
    ∃ s₁ t rs, exec (.init rule) s = .next s₁ ∧ exec (.run n) s₁ = .next t ∧ t.rsp = some (.rows rs) ∧
      (1 ≤ n → rs.head? = some (s.ports.seedIn.map fun v => if 0 < v then 1 else 0))) ∧
  ∀ (n : Nat) (s : State) (T : RuleNum) (S : List Bit), Running s T S → S.length = s.build.L →
    ∃ t rs, exec (.run n) s = .next t ∧ t.rsp = some (.rows rs) ∧ rs.length = n ∧
      ∀ row ∈ rs, row.length = s.build.L ∧ ∀ v ∈ row, v = 0 ∨ v = 1

/- ## The glyph packer (42_glyph_packer.md) -/

/-- R15, R150, R151: the escapes, character by character, RESET, and the line-break. The code points of ESC and LF and
the digit of a colour are the model's, PRESUMED from general knowledge (log entry 9). -/
def Obligations.EscapesSpellTheColourDigits : Prop :=
  (∀ c : Color, (fgEsc c).map Char.toNat = [0x1B, 0x5B, 0x33, 0x30 + (colorIndex c).toNat, 0x6D] ∧
    (bgEsc c).map Char.toNat = [0x1B, 0x5B, 0x34, 0x30 + (colorIndex c).toNat, 0x6D]) ∧
  [Color.black, .red, .green, .yellow, .blue, .magenta, .cyan, .white].map (fun c => (colorIndex c).toNat)
    = [0, 1, 2, 3, 4, 5, 6, 7] ∧
  resetEsc.map Char.toNat = [0x1B, 0x5B, 0x30, 0x6D] ∧
  lfChar.toNat = 0x0A

/-- R160: RENDER_ASCII answers its text, needs no INIT, and changes nothing else. -/
def Obligations.RenderAsciiAnswersItsText : Prop :=
  ∀ s : State, Ready s → matrixPresentable s.build s.ports.matIn = true →
    exec .renderAscii s = .next { s with rsp := some (.text (asciiText s.ports.matIn)) }

/-- R160: the text is one character per cell, `#` iff the cell is greater than 0, with a line-break after every row:
the empty matrix gives the empty text, and there are as many line-breaks as rows. -/
def Obligations.AsciiTextIsOneLinePerRow : Prop :=
  asciiText [] = [] ∧
  (∀ (row : List Int) (m : CellMatrix),
    asciiText (row :: m) = row.map (fun v => if 0 < v then '#' else '.') ++ [lfChar] ++ asciiText m) ∧
  ∀ m : CellMatrix, (asciiText m).count lfChar = m.length

/-- R165: RENDER_HALF answers its text, needs no INIT, and changes nothing else. -/
def Obligations.RenderHalfAnswersItsText : Prop :=
  ∀ (fg bg : Color) (s : State), Ready s → matrixPresentable s.build s.ports.matIn = true →
    exec (.renderHalf fg bg) s = .next { s with rsp := some (.text (halfText fg bg s.ports.matIn)) }

/-- R165, R166: rows are taken in pairs, an odd last row is dropped; a pair gives one group of escapes and glyph per column
up to the shorter row, the top cell on the background channel and the bottom cell on the foreground channel, then a
line-break. -/
def Obligations.HalfTextTakesRowsInPairs : Prop :=
  ∀ fg bg : Color,
    halfText fg bg [] = [] ∧ (∀ row, halfText fg bg [row] = []) ∧
    ∀ (top bot : List Int) (m : CellMatrix),
      halfText fg bg (top :: bot :: m) =
        (List.zipWith (fun x y =>
            (if 0 < x then bgEsc fg else bgEsc bg) ++ (if 0 < y then fgEsc fg else fgEsc bg)
              ++ [halfBlock] ++ resetEsc) top bot).flatten
          ++ [lfChar] ++ halfText fg bg m

/-- R172: RENDER_BRAILLE answers its text, needs no INIT, and changes nothing else. -/
def Obligations.RenderBrailleAnswersItsText : Prop :=
  ∀ (fg bg : Color) (s : State), Ready s → matrixPresentable s.build s.ports.matIn = true →
    exec (.renderBraille fg bg) s = .next { s with rsp := some (.text (brailleText fg bg s.ports.matIn)) }

/-- R172: the escape pair once at the start and RESET once at the end; rows in chunks of four, a partial last chunk
dropped; a chunk gives one glyph per two columns of its shortest row, then a line-break. -/
def Obligations.BrailleTextTakesRowsInFours : Prop :=
  (∀ (fg bg : Color) (m : CellMatrix), brailleText fg bg m = fgEsc fg ++ bgEsc bg ++ brailleLines m ++ resetEsc) ∧
  (∀ m : CellMatrix, m.length < 4 → brailleLines m = []) ∧
  ∀ (a b c d : List Int) (m : CellMatrix),
    brailleLines (a :: b :: c :: d :: m) =
      (List.range (min (min a.length b.length) (min c.length d.length) / 2)).map
          (fun j => brailleGlyph fun dr dc => ([a, b, c, d].getD dr.val []).getD (2 * j + dc.val) 0)
        ++ [lfChar] ++ brailleLines m

/-- R170: the eight dot weights, distinct powers of two, so blocks with different lit cells have different code
points, all in U+2800 to U+28FF, and every code point there is some block's. -/
def Obligations.BrailleGlyphsNameTheirDots : Prop :=
  (dotWeight 0 0 = 0x01 ∧ dotWeight 0 1 = 0x08 ∧ dotWeight 1 0 = 0x02 ∧ dotWeight 1 1 = 0x10 ∧
    dotWeight 2 0 = 0x04 ∧ dotWeight 2 1 = 0x20 ∧ dotWeight 3 0 = 0x40 ∧ dotWeight 3 1 = 0x80) ∧
  (∀ B B' : Fin 4 → Fin 2 → Int,
    brailleGlyph B = brailleGlyph B' ↔ ∀ dr dc, (0 < B dr dc ↔ 0 < B' dr dc)) ∧
  (∀ B : Fin 4 → Fin 2 → Int, 0x2800 ≤ (brailleGlyph B).toNat ∧ (brailleGlyph B).toNat ≤ 0x28FF) ∧
  ∀ n, 0x2800 ≤ n → n ≤ 0x28FF → ∃ B : Fin 4 → Fin 2 → Int, (brailleGlyph B).toNat = n

/-- R171: a glyph's code point is 0x2800 plus the sum of the weights of the lit cells, which never carries: it is
their bitwise OR. -/
def Obligations.BrailleCodePointIsTheOrOfTheWeights : Prop :=
  ∀ B : Fin 4 → Fin 2 → Int,
    let v := fun dr dc => if 0 < B dr dc then dotWeight dr dc else 0
    (brailleGlyph B).toNat =
      0x2800 + (v 0 0 + v 0 1 + v 1 0 + v 1 1 + v 2 0 + v 2 1 + v 3 0 + v 3 1) ∧
    v 0 0 + v 0 1 + v 1 0 + v 1 1 + v 2 0 + v 2 1 + v 3 0 + v 3 1
      = v 0 0 ||| v 0 1 ||| v 1 0 ||| v 1 1 ||| v 2 0 ||| v 2 1 ||| v 3 0 ||| v 3 1

/-- R173: in half-block text every glyph has a background and a foreground escape right before it and RESET right after
it, and the text holds no other escape (three ESC characters for each glyph); braille text holds one pair, at the start,
and one RESET, at the end of the whole text (three ESC characters in all). -/
def Obligations.EscapeFramingOfTheTwoColouredEncodings : Prop :=
  ∀ (fg bg : Color) (m : CellMatrix),
    (∀ before after : Text, halfText fg bg m = before ++ halfBlock :: after →
      (∃ top bot : Color, (top = fg ∨ top = bg) ∧ (bot = fg ∨ bot = bg) ∧ (bgEsc top ++ fgEsc bot) <:+ before) ∧
      resetEsc <+: after) ∧
    (halfText fg bg m).count escChar = 3 * (halfText fg bg m).count halfBlock ∧
    (brailleText fg bg m).count escChar = 3 ∧
    (fgEsc fg ++ bgEsc bg) <+: brailleText fg bg m ∧ resetEsc <:+ brailleText fg bg m

/-- R160, R165, R172 with 90_conflicts.md C6: the output alphabet is `#`, `.`, LF, the characters of the escapes, U+2584
and U+2800 to U+28FF. -/
def Obligations.TextsStayInTheOutputAlphabet : Prop :=
  ∀ (fg bg : Color) (m : CellMatrix),
    (∀ ch ∈ asciiText m, ch = '#' ∨ ch = '.' ∨ ch = lfChar) ∧
    (∀ ch ∈ halfText fg bg m,
      ch = halfBlock ∨ ch = lfChar ∨ ch ∈ fgEsc fg ++ fgEsc bg ++ bgEsc fg ++ bgEsc bg ++ resetEsc) ∧
    ∀ ch ∈ brailleText fg bg m,
      (0x2800 ≤ ch.toNat ∧ ch.toNat ≤ 0x28FF) ∨ ch = lfChar ∨ ch ∈ fgEsc fg ++ bgEsc bg ++ resetEsc

/-- R153: of a matrix cell only whether it is greater than 0 counts, in all three encodings. -/
def Obligations.OnlyLitnessOfCellsIsRendered : Prop :=
  ∀ (fg bg : Color) (m : CellMatrix),
    let m01 : CellMatrix := m.map fun row => row.map fun v => if 0 < v then 1 else 0
    asciiText m01 = asciiText m ∧ halfText fg bg m01 = halfText fg bg m ∧ brailleText fg bg m01 = brailleText fg bg m

/-- R46, R160: on a byte port a RENDER_ASCII text is one byte per character, and the two kinds of glyph are three
bytes each. The bytes are UTF-8, PRESUMED from general knowledge (log entry 10). -/
def Obligations.GlyphsAsUtf8Bytes : Prop :=
  (∀ m : CellMatrix, textBytes (asciiText m) = (asciiText m).map fun ch => BitVec.ofNat 8 ch.toNat) ∧
  textBytes [halfBlock] = [0xE2#8, 0x96#8, 0x84#8] ∧
  ∀ B : Fin 4 → Fin 2 → Int,
    textBytes [brailleGlyph B] =
      [0xE2#8, BitVec.ofNat 8 (0xA0 + dotSum B / 64), BitVec.ofNat 8 (0x80 + dotSum B % 64)]

/- ## Responses, STATUS and the output ports (10_state.md) -/

/-- R31: each command that completes without a fault gives exactly its kind of response; one that faults or is ignored
gives none, an illegal word included. -/
def Obligations.EachCommandGivesItsKindOfResponse : Prop :=
  (∀ (i : Instr) (s t : State), exec i s = .next t →
    (t.status.fault ≠ .none → t.rsp = none) ∧
    (t.status.fault = .none →
      match i with
      | .init _ => t.rsp = some .unit
      | .step => t.rsp = some .unit
      | .run _ => ∃ rs, t.rsp = some (.rows rs)
      | .rtget _ _ _ _ => ∃ b, t.rsp = some (.bit b)
      | .renderAscii => ∃ x, t.rsp = some (.text x)
      | .renderHalf _ _ => ∃ x, t.rsp = some (.text x)
      | .renderBraille _ _ => ∃ x, t.rsp = some (.text x))) ∧
  ∀ s t : State, executeWord s = .next t → t.status.fault ≠ .none → t.rsp = none

/-- R30: with INIT = 1, `state_out[i] = toInt(STATE[i])` for every cell; with INIT = 0 the port has no value. -/
def Obligations.StateOutShowsState : Prop :=
  ∀ s : State,
    (s.status.init = true → ∀ S, s.cells = some S →
      ∃ out, stateOut s = some out ∧ out.length = S.length ∧ ∀ i : Nat, out[i]? = S[i]?.map toInt) ∧
    (s.status.init = false → stateOut s = none)

/-- R23, R24: `status_out` is INIT in bit 0 and the code of FAULT in bits 2:1. -/
def Obligations.StatusOutLayout : Prop :=
  ∀ s : State,
    (statusOut s).getLsbD 0 = s.status.init ∧
    (statusOut s).extractLsb' 1 2 =
      (match s.status.fault with
        | .none => 0b00#2 | .illegalCmd => 0b01#2 | .uninit => 0b10#2 | .internal => 0b11#2)

/-- R23: no command clears INIT or FAULT. -/
def Obligations.NoCommandClearsStatus : Prop :=
  ∀ (i : Instr) (s t : State), exec i s = .next t →
    (s.status.init = true → t.status.init = true) ∧ (s.status.fault ≠ .none → t.status.fault = s.status.fault)

/-- R21, R50: RULE changes only by a legal INIT word, which sets it to the word's rule, or by reset, which takes its
value away. -/
def Obligations.OnlyInitAndResetWriteRule : Prop :=
  ∀ s t : State, step s = .next t → t.rule ≠ s.rule →
    (∃ rest, s.pending = .rst :: rest ∧ t.rule = none) ∨
    ∃ p rest rule, s.pending = .command p :: rest ∧ decode p.cmd = .ok (.init rule) ∧ t.rule = some rule

/-- R22, R50: STATE changes only by a legal INIT, STEP or RUN word, or by reset, which takes its value away. -/
def Obligations.OnlyInitStepRunAndResetWriteState : Prop :=
  ∀ s t : State, step s = .next t → t.cells ≠ s.cells →
    (∃ rest, s.pending = .rst :: rest ∧ t.cells = none) ∨
    ∃ p rest i, s.pending = .command p :: rest ∧ decode p.cmd = .ok i ∧
      ((∃ rule, i = .init rule) ∨ i = .step ∨ ∃ n, i = .run n)

/- ## Frames -/

/-- R102, R154: RTGET and the three RENDER commands change nothing but the response. -/
def Obligations.RtgetAndRenderFrame : Prop :=
  ∀ (i : Instr) (s t : State),
    ((∃ rule l c r, i = .rtget rule l c r) ∨ i = .renderAscii ∨ (∃ fg bg, i = .renderHalf fg bg) ∨
      ∃ fg bg, i = .renderBraille fg bg) →
    exec i s = .next t → t = { s with rsp := t.rsp }

/-- R123, R126, R201: STEP and RUN change STATE and the response, or record UNINIT and change no register but FAULT;
never RULE, INIT, the build, the ports or the queue, and never the number of cells. -/
def Obligations.StepAndRunFrame : Prop :=
  ∀ (i : Instr) (s t : State), (i = .step ∨ ∃ n, i = .run n) → exec i s = .next t →
    t = { s with cells := t.cells, status := { s.status with fault := t.status.fault }, rsp := t.rsp } ∧
    (t.status.fault = s.status.fault ∨ (t.status.fault = .uninit ∧ t.cells = s.cells)) ∧
    t.cells.map List.length = s.cells.map List.length

/-- R121: INIT changes STATE, RULE, STATUS.INIT and the response, never FAULT, the build, the ports or the queue. -/
def Obligations.InitFrame : Prop :=
  ∀ (rule : RuleNum) (s t : State), exec (.init rule) s = .next t →
    t = { s with cells := t.cells, rule := t.rule, status := { s.status with init := t.status.init }, rsp := t.rsp }

/- ## Faults (60_exceptions.md) -/

/-- R201: a command that records a fault writes FAULT and nothing else, and gives no response. -/
def Obligations.RaisingAFaultIsPrecise : Prop :=
  ∀ s t : State, Ready s → executeWord s = .next t → t.status.fault ≠ .none →
    t = { s with status := { init := s.status.init, fault := t.status.fault }, rsp := none }

/-- R202: while faulted every command word, legal or not, has no effect and no response, over any number of steps
without reset; only reset clears FAULT; a sequence that starts faulted and resets only after its last command, or never,
has no good end. The queue of host actions is the model's (log
entry 4), and so is an idle step. -/
def Obligations.FaultsAreSticky : Prop :=
  (∀ (k : Nat) (s : State), 0 < s.build.L → s.status.fault ≠ .none → (∀ a ∈ s.pending.take k, a ≠ .rst) →
    (∃ t, runFor k s = .next t ∧ t.status = s.status ∧ t.rule = s.rule ∧ t.cells = s.cells ∧
      t.pending = s.pending.drop k) ∧
    transcript k s = []) ∧
  (∀ s t : State, s.status.fault ≠ .none → step s = .next t → t.status.fault ≠ s.status.fault →
    ∃ rest, s.pending = .rst :: rest) ∧
  ∀ (s : State) (front : List HostAction) (p : Ports) (n : Nat),
    s.status.fault ≠ .none → s.pending = front ++ .command p :: List.replicate n .rst → (∀ a ∈ front, a ≠ .rst) →
    ¬ GoodEnd s

/-- R204: the sticky fault comes first, then ILLEGAL_CMD, whatever INIT is, then UNINIT; INTERNAL is never recorded. -/
def Obligations.PriorityOfCauses : Prop :=
  ∀ s : State, 0 < s.build.L →
    (s.status.fault ≠ .none → executeWord s = .next { s with rsp := none }) ∧
    (s.status.fault = .none → (∃ e, decode s.ports.cmd = .error e) →
      executeWord s = .next { s with status := { init := s.status.init, fault := .illegalCmd }, rsp := none }) ∧
    (s.status.fault = .none → s.status.init = false →
      (decode s.ports.cmd = .ok .step ∨ ∃ n, decode s.ports.cmd = .ok (.run n)) →
      executeWord s = .next { s with status := { init := false, fault := .uninit }, rsp := none }) ∧
    ∀ t, executeWord s = .next t → s.status.fault ≠ .internal → t.status.fault ≠ .internal

/-- R205: STEP and RUN, for every n, raise UNINIT when INIT = 0; the other five never do. -/
def Obligations.UninitExactlyForStepAndRun : Prop :=
  (∀ (i : Instr) (s : State), Ready s → s.status.init = false → (i = .step ∨ ∃ n, i = .run n) →
    exec i s = .next { s with status := { init := false, fault := .uninit }, rsp := none }) ∧
  ∀ (i : Instr) (s t : State), i ≠ .step → (∀ n, i ≠ .run n) → exec i s = .next t →
    t.status.fault = s.status.fault

/-- R207: on a constructed block every command, whatever the length L ≥ 1, the count and the matrix, completes with a
response and without a fault: degenerate inputs are not faults. -/
def Obligations.DegenerateInputsAreNotFaults : Prop :=
  ∀ (i : Instr) (s : State), BlockInv s → s.status.init = true → s.status.fault = .none →
    seedPresentable s.build s.ports.seedIn = true → matrixPresentable s.build s.ports.matIn = true →
    ∃ t, exec i s = .next t ∧ t.status.fault = .none ∧ t.rsp ≠ none

/-- R7, R10, R11, R17: the boundary refuses every action on a block with L = 0, a seed whose length is not L, a matrix
above MAX_ROWS or with a row above MAX_COLS, and an element outside the port of width CELL_W. WHEN it does so is the
model's choice (log entry 7): L = 0 before everything, an operand as the command that samples it executes on a ready
block, the size before the elements. Which elements a port of a width carries is the model's too (log entry 8). -/
def Obligations.TheBoundaryRefuses : Prop :=
  (∀ (s : State) (a : HostAction) (rest : List HostAction),
    s.build.L = 0 → s.pending = a :: rest → step s = .refused .zeroLength) ∧
  (∀ (rule : RuleNum) (s : State), Ready s → s.ports.seedIn.length ≠ s.build.L →
    exec (.init rule) s = .refused .seedLength) ∧
  (∀ (i : Instr) (s : State), Ready s →
    (i = .renderAscii ∨ (∃ fg bg, i = .renderHalf fg bg) ∨ ∃ fg bg, i = .renderBraille fg bg) →
    ((∃ b, s.build.maxRows = some b ∧ b < s.ports.matIn.length) ∨
      ∃ b, s.build.maxCols = some b ∧ ∃ row ∈ s.ports.matIn, b < row.length) →
    exec i s = .refused .matrixTooLarge) ∧
  ∀ (s : State) (v : Int), Ready s →
    ((∃ w, s.build.cellW = .unsigned w ∧ (v < 0 ∨ 2 ^ w ≤ v)) ∨
      ∃ w, s.build.cellW = .signed w ∧ (2 * v < -(2 ^ w) ∨ 2 ^ w ≤ 2 * v)) →
    (∀ rule : RuleNum, s.ports.seedIn.length = s.build.L → v ∈ s.ports.seedIn →
      exec (.init rule) s = .refused .cellTooWide) ∧
    ∀ i : Instr,
      (i = .renderAscii ∨ (∃ fg bg, i = .renderHalf fg bg) ∨ ∃ fg bg, i = .renderBraille fg bg) →
      (∀ b, s.build.maxRows = some b → s.ports.matIn.length ≤ b) →
      (∀ b, s.build.maxCols = some b → ∀ row ∈ s.ports.matIn, row.length ≤ b) →
      (∃ row ∈ s.ports.matIn, v ∈ row) →
      exec i s = .refused .cellTooWide

/- ## Reset and whole-machine statements (70_reset_and_hazards.md, 20_memory.md, 60_exceptions.md) -/

/-- R33: the values after reset, for every build, and UNINIT for every command that would read RULE or STATE while
INIT = 0. -/
def Obligations.ValuesAfterReset : Prop :=
  (∀ b : Build,
    (State.resetOf b).status.init = false ∧ (State.resetOf b).status.fault = .none ∧
    (State.resetOf b).rule = none ∧ (State.resetOf b).cells = none ∧ (State.resetOf b).rsp = none ∧
    stateOut (State.resetOf b) = none) ∧
  ∀ (i : Instr) (s : State), Ready s → s.status.init = false → (i = .step ∨ ∃ n, i = .run n) →
    ∃ t, exec i s = .next t ∧ t.status.fault = .uninit

/-- R230: reset works from any state, faulted or not, and leaves STATUS clear, RULE and STATE without a value and no
response, whatever they held. (`rst` at the head of the queue is how the model says that the host resets, log entry 4.) -/
def Obligations.ResetWorksFromEveryState : Prop :=
  ∀ (s : State) (rest : List HostAction), 0 < s.build.L → s.pending = .rst :: rest →
    ∃ t, step s = .next t ∧
      t.status.init = false ∧ t.status.fault = .none ∧ t.rule = none ∧ t.cells = none ∧ t.rsp = none

/-- R69: a step takes the oldest action, puts its word and operands on the ports, and executes the word there; on a
legal word that is the decoded command. The queue and the latched ports are the model's (log entries 4 and 5). -/
def Obligations.StepRunsTheDecodedCommand : Prop :=
  ∀ (s : State) (p : Ports) (rest : List HostAction), s.pending = .command p :: rest →
    step s = executeWord { s with ports := p, pending := rest } ∧
    ∀ i : Instr, decode p.cmd = .ok i → step s = exec i { s with ports := p, pending := rest }

/-- R213 says the block is idle between commands and holds its state. That a step is taken with no action waiting and
answers the same state is the model's choice (log entry 4); that it keeps the response is the model's reading (log entry
6). -/
def Obligations.IdleBlockHoldsItsState : Prop :=
  ∀ s : State, s.pending = [] → step s = .next s

/-- R7, R33: the invariant holds of every admitted build after reset. -/
def Obligations.InvHoldsAfterReset : Prop :=
  ∀ b : Build, 0 < b.L → BlockInv (State.resetOf b)

/-- R7, R22, R33, R129, R201, R206: every step keeps the invariant, and the build with it. -/
def Obligations.EveryStepKeepsInv : Prop :=
  ∀ s t : State, BlockInv s → step s = .next t → BlockInv t ∧ t.build = s.build

/-- R6, R51, R214, R215: from every state with the invariant, a sequence of host actions the boundary lets through runs
to its end, one step an action, and one that holds a command is observed there: nothing the host may do stops the block.
The queue is the model's (log entry 4), and so is the reading that without a command there is no end (log entry 18). -/
def Obligations.EveryPresentableSequenceRunsToItsEnd : Prop :=
  ∀ s : State, BlockInv s → (∀ a ∈ s.pending, Presentable s.build a) →
    (∃ t, runFor s.pending.length s = .next t ∧ t.pending = [] ∧ BlockInv t) ∧
    ((∃ p, .command p ∈ s.pending) → ∃ o, observation s = some o)

/- ## The assembler (30_encoding.md R72) -/

/-- R72, row by row: the colour names, and for every line that is assembled the command its word decodes to, in the
line's own numbers and names, with the seed or matrix it names on its port and a seed of length L. That a port a line
does not name keeps what it carried is the model's (log entry 12). -/
def Obligations.AssembledLinesDecodeToTheirCommand : Prop :=
  [Color.black, .red, .green, .yellow, .blue, .magenta, .cyan, .white].map (fun c => String.ofList (colorName c))
    = ["Black", "Red", "Green", "Yellow", "Blue", "Magenta", "Cyan", "White"] ∧
  ∀ (b : Build) (p q : Ports) (line : AsmLine), assemble b p line = .ok q →
    match line with
    | .init rule seed =>
        rule ≤ 255 ∧ decode q.cmd = .ok (.init (BitVec.ofNat 8 rule)) ∧
        q.seedIn = seed ∧ seed.length = b.L ∧ q.matIn = p.matIn
    | .step => decode q.cmd = .ok .step ∧ q.seedIn = p.seedIn ∧ q.matIn = p.matIn
    | .run n => decode q.cmd = .ok (.run n) ∧ q.seedIn = p.seedIn ∧ q.matIn = p.matIn
    | .rtget rule l c r =>
        rule ≤ 255 ∧
        (∃ left centre right : Bit, bitNat left = l ∧ bitNat centre = c ∧ bitNat right = r ∧
          decode q.cmd = .ok (.rtget (BitVec.ofNat 8 rule) left centre right)) ∧
        q.seedIn = p.seedIn ∧ q.matIn = p.matIn
    | .renderAscii m => decode q.cmd = .ok .renderAscii ∧ q.matIn = m ∧ q.seedIn = p.seedIn
    | .renderHalf fg bg m =>
        (∃ front back : Color, colorName front = fg ∧ colorName back = bg ∧
          decode q.cmd = .ok (.renderHalf front back)) ∧
        q.matIn = m ∧ q.seedIn = p.seedIn
    | .renderBraille fg bg m =>
        (∃ front back : Color, colorName front = fg ∧ colorName back = bg ∧
          decode q.cmd = .ok (.renderBraille front back)) ∧
        q.matIn = m ∧ q.seedIn = p.seedIn

/-- R72: an assembler refuses a rule above 255, a count above 2^28 − 1, a neighbour bit other than 0 or 1, a colour
name outside the eight, and a seed list whose length is not L; and it refuses nothing else. -/
def Obligations.AssemblerRefusesExactly : Prop :=
  ∀ (b : Build) (p : Ports) (line : AsmLine),
    (∃ e, assemble b p line = .error e) ↔
      match line with
      | .init rule seed => 255 < rule ∨ seed.length ≠ b.L
      | .step => False
      | .run n => 2 ^ 28 - 1 < n
      | .rtget rule l c r => 255 < rule ∨ 1 < l ∨ 1 < c ∨ 1 < r
      | .renderAscii _ => False
      | .renderHalf fg bg _ => (∀ c, colorName c ≠ fg) ∨ ∀ c, colorName c ≠ bg
      | .renderBraille fg bg _ => (∀ c, colorName c ≠ fg) ∨ ∀ c, colorName c ≠ bg

/- ## The end of a command sequence (60_exceptions.md R215) -/

/-- R215, R230: the end is the point right after the host's last command completes, and the observation is the responses
up to it with the STATE and STATUS there; resets after the last command change nothing of it, so that a command that
faults and then a reset have no good end. That a sequence without a command has no end is the model's reading (log entry
18), and the queue is the model's (log entry 4). -/
def Obligations.TheEndIsRightAfterTheLastCommand : Prop :=
  (∀ (s t : State) (front : List HostAction) (p : Ports) (n : Nat),
    s.pending = front ++ .command p :: List.replicate n .rst → runFor (front.length + 1) s = .next t →
    observation s =
      some { responses := transcript (front.length + 1) s, cells := t.cells, status := t.status } ∧
    (GoodEnd s ↔ t.status.fault = .none)) ∧
  (∀ (s : State) (n : Nat),
    observation { s with pending := s.pending ++ List.replicate n .rst } = observation s) ∧
  ∀ s : State, (∀ a ∈ s.pending, a = .rst) → observation s = none
end

