-- ==== Sys2Proof/Laws/Assembler.lean ====
section
/-! SUPPORT. One lemma per operation of the assembler, saying what an accepted piece is; proofs cite these instead of
unfolding the operations. -/

namespace Sys2Proof.Laws

open Sys2Proof.Machine

/-- An accepted bind accepted its first part. -/
theorem except_bind_ok {α β ε : Type} {x : Except ε α} {f : α → Except ε β} {r : β} (h : (x >>= f) = .ok r) :
    ∃ a, x = .ok a ∧ f a = .ok r := by
  cases x with
  | error e => cases h
  | ok a => exact ⟨a, rfl, h⟩

theorem asmRule_ok {n : Nat} {rule : RuleNum} (h : asmRule n = .ok rule) : n ≤ 255 ∧ rule = BitVec.ofNat 8 n := by
  unfold asmRule at h
  split at h
  · cases h; exact ⟨‹_›, rfl⟩
  · cases h

theorem asmBit_ok {n : Nat} {b : Bit} (h : asmBit n = .ok b) : (n = 0 ∧ b = .dead) ∨ (n = 1 ∧ b = .alive) := by
  unfold asmBit at h
  split at h
  · cases h; exact .inl ⟨‹_›, rfl⟩
  · split at h
    · cases h; exact .inr ⟨‹_›, rfl⟩
    · cases h

theorem asmColor_ok {name : Text} {c : Color} (h : asmColor name = .ok c) : colorName c = name := by
  unfold asmColor at h
  split at h
  · rename_i hf; cases h; simpa using List.find?_some hf
  · cases h

/-- Everything an assembled line can be: its command's word on `cmd`, over its operand ports, with an admitted seed. -/
theorem assemble_ok {b : Build} {p q : Ports} {line : AsmLine} (h : assemble b p line = .ok q) :
    ∃ i, asmInstr line = .ok i ∧ asmSeedOk b line = true ∧ q = { asmOperands p line with cmd := encode i } := by
  unfold assemble at h
  split at h
  · cases h
  · split at h
    · cases h; exact ⟨_, ‹_›, ‹_›, rfl⟩
    · cases h

end Sys2Proof.Laws
end

