-- ==== Sys2Proof/Laws/Decode.lean ====
section
/-! SUPPORT. The decoder as a chain of tests, and each row's mask and match as conditions on the fields of the format
(30_encoding.md R61, R67), so that later proofs reason about fields and not about masks. -/

namespace Sys2Proof

/-- The decoder, row by row. -/
theorem decode_eq (w : Word) : decode w =
    if w &&& 0xFFFFFF00#32 = 0x10000000#32 then .ok (.init (initRuleField w)) else
    if w &&& 0xFFFFFFFF#32 = 0x20000000#32 then .ok .step else
    if w &&& 0xF0000000#32 = 0x30000000#32 then .ok (.run (countField w)) else
    if w &&& 0xFFFF00F8#32 = 0x40000000#32 then
      .ok (.rtget (getRuleField w) (neighbourField w 2) (neighbourField w 1) (neighbourField w 0)) else
    if w &&& 0xFFFFFFFF#32 = 0x50000000#32 then .ok .renderAscii else
    if w &&& 0xFFFFFFC0#32 = 0x60000000#32 then .ok (.renderHalf (fgField w) (bgField w)) else
    if w &&& 0xFFFFFFC0#32 = 0x70000000#32 then .ok (.renderBraille (fgField w) (bgField w)) else
    .error (illegalReason w) := by
  simp [decode, opcodeTable, decodeWith, rowMatches]

/-- Format N. -/
theorem formatN_match (w m : Word) : w &&& 0xFFFFFFFF#32 = m ↔ w = m := by
  have : w &&& 0xFFFFFFFF#32 = w := by
    have h : (0xFFFFFFFF#32 : Word) = BitVec.allOnes 32 := by decide
    rw [h, BitVec.and_allOnes]
  rw [this]

/-- Format I. -/
theorem formatI_match (w : Word) :
    w &&& 0xFFFFFF00#32 = 0x10000000#32 ↔ opField w = 1 ∧ w.extractLsb' 8 20 = 0 := by
  constructor
  · intro h
    constructor <;> ext i hi
    · have := congrArg (fun x => x.getLsbD (28 + i)) h
      interval_cases i <;> simpa [opField] using this
    · have := congrArg (fun x => x.getLsbD (8 + i)) h
      interval_cases i <;> simpa using this
  · rintro ⟨h, h'⟩
    ext i hi
    by_cases h8 : i < 8
    · interval_cases i <;> simp
    · by_cases h28 : i < 28
      · have := congrArg (fun x => x.getLsbD (i - 8)) h'
        interval_cases i <;> simpa using this
      · have := congrArg (fun x => x.getLsbD (i - 28)) h
        interval_cases i <;> simpa [opField] using this

/-- Format C. -/
theorem formatC_match (w : Word) : w &&& 0xF0000000#32 = 0x30000000#32 ↔ opField w = 3 := by
  constructor
  · intro h
    ext i hi
    have := congrArg (fun x => x.getLsbD (28 + i)) h
    interval_cases i <;> simpa [opField] using this
  · intro h
    ext i hi
    by_cases h28 : i < 28
    · interval_cases i <;> simp
    · have := congrArg (fun x => x.getLsbD (i - 28)) h
      interval_cases i <;> simpa [opField] using this

/-- Format G. -/
theorem formatG_match (w : Word) :
    w &&& 0xFFFF00F8#32 = 0x40000000#32 ↔
      opField w = 4 ∧ w.extractLsb' 16 12 = 0 ∧ w.extractLsb' 3 5 = 0 := by
  constructor
  · intro h
    refine ⟨?_, ?_, ?_⟩ <;> ext i hi
    · have := congrArg (fun x => x.getLsbD (28 + i)) h
      interval_cases i <;> simpa [opField] using this
    · have := congrArg (fun x => x.getLsbD (16 + i)) h
      interval_cases i <;> simpa using this
    · have := congrArg (fun x => x.getLsbD (3 + i)) h
      interval_cases i <;> simpa using this
  · rintro ⟨h, h', h''⟩
    ext i hi
    by_cases h3 : i < 3 ∨ (8 ≤ i ∧ i < 16)
    · rcases h3 with h3 | ⟨h8, h16⟩ <;> interval_cases i <;> simp
    · by_cases h8 : i < 8
      · have := congrArg (fun x => x.getLsbD (i - 3)) h''
        have h3 : 3 ≤ i := by omega
        interval_cases i <;> simpa using this
      · have h16 : 16 ≤ i := by omega
        by_cases h28 : i < 28
        · have := congrArg (fun x => x.getLsbD (i - 16)) h'
          interval_cases i <;> simpa using this
        · have := congrArg (fun x => x.getLsbD (i - 28)) h
          interval_cases i <;> simpa [opField] using this

/-- Format K, RENDER_HALF. -/
theorem formatK_match_half (w : Word) :
    w &&& 0xFFFFFFC0#32 = 0x60000000#32 ↔ opField w = 6 ∧ w.extractLsb' 6 22 = 0 := by
  constructor
  · intro h
    constructor <;> ext i hi
    · have := congrArg (fun x => x.getLsbD (28 + i)) h
      interval_cases i <;> simpa [opField] using this
    · have := congrArg (fun x => x.getLsbD (6 + i)) h
      interval_cases i <;> simpa using this
  · rintro ⟨h, h'⟩
    ext i hi
    by_cases h6 : i < 6
    · interval_cases i <;> simp
    · by_cases h28 : i < 28
      · have := congrArg (fun x => x.getLsbD (i - 6)) h'
        interval_cases i <;> simpa using this
      · have := congrArg (fun x => x.getLsbD (i - 28)) h
        interval_cases i <;> simpa [opField] using this

/-- Format K, RENDER_BRAILLE. -/
theorem formatK_match_braille (w : Word) :
    w &&& 0xFFFFFFC0#32 = 0x70000000#32 ↔ opField w = 7 ∧ w.extractLsb' 6 22 = 0 := by
  constructor
  · intro h
    constructor <;> ext i hi
    · have := congrArg (fun x => x.getLsbD (28 + i)) h
      interval_cases i <;> simpa [opField] using this
    · have := congrArg (fun x => x.getLsbD (6 + i)) h
      interval_cases i <;> simpa using this
  · rintro ⟨h, h'⟩
    ext i hi
    by_cases h6 : i < 6
    · interval_cases i <;> simp
    · by_cases h28 : i < 28
      · have := congrArg (fun x => x.getLsbD (i - 6)) h'
        interval_cases i <;> simpa using this
      · have := congrArg (fun x => x.getLsbD (i - 28)) h
        interval_cases i <;> simpa [opField] using this

/-- A Bit survives its way through a bit of a word. -/
@[simp] theorem bitOfBool_boolOfBit (b : Bit) : bitOfBool (boolOfBit b) = b := by cases b <;> rfl

@[simp] theorem boolOfBit_bitOfBool (x : Bool) : boolOfBit (bitOfBool x) = x := by cases x <;> rfl

/-- A colour survives its way through a 3-bit field. -/
@[simp] theorem colorOfIndex_colorIndex (c : Color) : colorOfIndex (colorIndex c) = c := by cases c <;> rfl

@[simp] theorem colorIndex_colorOfIndex (i : BitVec 3) : colorIndex (colorOfIndex i) = i := by
  revert i; decide

end Sys2Proof
end

