-- ==== Sys2Proof/Laws/State.lean ====
section
/-! SUPPORT. What each state-changing operation leaves in each field, one lemma per field, so that no later proof
unfolds a record update; and the fields of the state after reset. -/

namespace Sys2Proof.Machine

@[simp] theorem respond_build (r : Response) (s : State) :
    (respond r s).build = s.build := rfl
@[simp] theorem respond_status (r : Response) (s : State) :
    (respond r s).status = s.status := rfl
@[simp] theorem respond_rule (r : Response) (s : State) :
    (respond r s).rule = s.rule := rfl
@[simp] theorem respond_cells (r : Response) (s : State) :
    (respond r s).cells = s.cells := rfl
@[simp] theorem respond_rsp (r : Response) (s : State) :
    (respond r s).rsp = some r := rfl
@[simp] theorem respond_ports (r : Response) (s : State) :
    (respond r s).ports = s.ports := rfl
@[simp] theorem respond_pending (r : Response) (s : State) :
    (respond r s).pending = s.pending := rfl

@[simp] theorem raiseFault_build (code : FaultCode) (s : State) :
    (raiseFault code s).build = s.build := rfl
@[simp] theorem raiseFault_status (code : FaultCode) (s : State) :
    (raiseFault code s).status = { s.status with fault := code } := rfl
@[simp] theorem raiseFault_rule (code : FaultCode) (s : State) :
    (raiseFault code s).rule = s.rule := rfl
@[simp] theorem raiseFault_cells (code : FaultCode) (s : State) :
    (raiseFault code s).cells = s.cells := rfl
@[simp] theorem raiseFault_rsp (code : FaultCode) (s : State) :
    (raiseFault code s).rsp = none := rfl
@[simp] theorem raiseFault_ports (code : FaultCode) (s : State) :
    (raiseFault code s).ports = s.ports := rfl
@[simp] theorem raiseFault_pending (code : FaultCode) (s : State) :
    (raiseFault code s).pending = s.pending := rfl

@[simp] theorem ignoreCommand_build (s : State) :
    (ignoreCommand s).build = s.build := rfl
@[simp] theorem ignoreCommand_status (s : State) :
    (ignoreCommand s).status = s.status := rfl
@[simp] theorem ignoreCommand_rule (s : State) :
    (ignoreCommand s).rule = s.rule := rfl
@[simp] theorem ignoreCommand_cells (s : State) :
    (ignoreCommand s).cells = s.cells := rfl
@[simp] theorem ignoreCommand_rsp (s : State) :
    (ignoreCommand s).rsp = none := rfl
@[simp] theorem ignoreCommand_ports (s : State) :
    (ignoreCommand s).ports = s.ports := rfl
@[simp] theorem ignoreCommand_pending (s : State) :
    (ignoreCommand s).pending = s.pending := rfl

@[simp] theorem resetBlock_build (s : State) :
    (resetBlock s).build = s.build := rfl
@[simp] theorem resetBlock_status (s : State) :
    (resetBlock s).status = { init := false, fault := .none } := rfl
@[simp] theorem resetBlock_rule (s : State) :
    (resetBlock s).rule = none := rfl
@[simp] theorem resetBlock_cells (s : State) :
    (resetBlock s).cells = none := rfl
@[simp] theorem resetBlock_rsp (s : State) :
    (resetBlock s).rsp = none := rfl
@[simp] theorem resetBlock_ports (s : State) :
    (resetBlock s).ports = s.ports := rfl
@[simp] theorem resetBlock_pending (s : State) :
    (resetBlock s).pending = s.pending := rfl

@[simp] theorem construct_build (rule : RuleNum) (S : List Bit) (s : State) :
    (construct rule S s).build = s.build := rfl
@[simp] theorem construct_status (rule : RuleNum) (S : List Bit) (s : State) :
    (construct rule S s).status = { s.status with init := true } := rfl
@[simp] theorem construct_rule (rule : RuleNum) (S : List Bit) (s : State) :
    (construct rule S s).rule = some rule := rfl
@[simp] theorem construct_cells (rule : RuleNum) (S : List Bit) (s : State) :
    (construct rule S s).cells = some S := rfl
@[simp] theorem construct_rsp (rule : RuleNum) (S : List Bit) (s : State) :
    (construct rule S s).rsp = s.rsp := rfl
@[simp] theorem construct_ports (rule : RuleNum) (S : List Bit) (s : State) :
    (construct rule S s).ports = s.ports := rfl
@[simp] theorem construct_pending (rule : RuleNum) (S : List Bit) (s : State) :
    (construct rule S s).pending = s.pending := rfl

@[simp] theorem writeCells_build (S : List Bit) (s : State) :
    (writeCells S s).build = s.build := rfl
@[simp] theorem writeCells_status (S : List Bit) (s : State) :
    (writeCells S s).status = s.status := rfl
@[simp] theorem writeCells_rule (S : List Bit) (s : State) :
    (writeCells S s).rule = s.rule := rfl
@[simp] theorem writeCells_cells (S : List Bit) (s : State) :
    (writeCells S s).cells = some S := rfl
@[simp] theorem writeCells_rsp (S : List Bit) (s : State) :
    (writeCells S s).rsp = s.rsp := rfl
@[simp] theorem writeCells_ports (S : List Bit) (s : State) :
    (writeCells S s).ports = s.ports := rfl
@[simp] theorem writeCells_pending (S : List Bit) (s : State) :
    (writeCells S s).pending = s.pending := rfl

@[simp] theorem latchPorts_build (p : Ports) (s : State) :
    (latchPorts p s).build = s.build := rfl
@[simp] theorem latchPorts_status (p : Ports) (s : State) :
    (latchPorts p s).status = s.status := rfl
@[simp] theorem latchPorts_rule (p : Ports) (s : State) :
    (latchPorts p s).rule = s.rule := rfl
@[simp] theorem latchPorts_cells (p : Ports) (s : State) :
    (latchPorts p s).cells = s.cells := rfl
@[simp] theorem latchPorts_rsp (p : Ports) (s : State) :
    (latchPorts p s).rsp = s.rsp := rfl
@[simp] theorem latchPorts_ports (p : Ports) (s : State) :
    (latchPorts p s).ports = p := rfl
@[simp] theorem latchPorts_pending (p : Ports) (s : State) :
    (latchPorts p s).pending = s.pending := rfl

@[simp] theorem dequeue_build (rest : List HostAction) (s : State) :
    (dequeue rest s).build = s.build := rfl
@[simp] theorem dequeue_status (rest : List HostAction) (s : State) :
    (dequeue rest s).status = s.status := rfl
@[simp] theorem dequeue_rule (rest : List HostAction) (s : State) :
    (dequeue rest s).rule = s.rule := rfl
@[simp] theorem dequeue_cells (rest : List HostAction) (s : State) :
    (dequeue rest s).cells = s.cells := rfl
@[simp] theorem dequeue_rsp (rest : List HostAction) (s : State) :
    (dequeue rest s).rsp = s.rsp := rfl
@[simp] theorem dequeue_ports (rest : List HostAction) (s : State) :
    (dequeue rest s).ports = s.ports := rfl
@[simp] theorem dequeue_pending (rest : List HostAction) (s : State) :
    (dequeue rest s).pending = rest := rfl

@[simp] theorem resetOf_build (b : Build) : (State.resetOf b).build = b := rfl
@[simp] theorem resetOf_status (b : Build) : (State.resetOf b).status = { init := false, fault := .none } := rfl
@[simp] theorem resetOf_rule (b : Build) : (State.resetOf b).rule = none := rfl
@[simp] theorem resetOf_cells (b : Build) : (State.resetOf b).cells = none := rfl
@[simp] theorem resetOf_rsp (b : Build) : (State.resetOf b).rsp = none := rfl
@[simp] theorem resetOf_ports (b : Build) : (State.resetOf b).ports = Ports.idle b := rfl
@[simp] theorem resetOf_pending (b : Build) : (State.resetOf b).pending = [] := rfl

end Sys2Proof.Machine
end

