-- ==== Sys2Proof/Laws/Ops.lean ====
section
/-! SUPPORT. What each shared operation can do, once: what it answers under its conditions, and every case in which it
answers a next state. -/

namespace Sys2Proof.Machine

theorem faulted_iff (s : State) : faulted s = true ↔ s.status.fault ≠ .none := by
  simp [faulted]

theorem faulted_eq_false_iff (s : State) : faulted s = false ↔ s.status.fault = .none := by
  simp [faulted]

theorem whenReady_of_ready {s : State} (h : Ready s) (k : Result) : whenReady s k = k := by
  simp [whenReady, (faulted_eq_false_iff s).2 h.2, Nat.ne_of_gt h.1]

theorem whenReady_of_faulted {s : State} (hL : 0 < s.build.L) (hf : s.status.fault ≠ .none) (k : Result) :
    whenReady s k = .next (ignoreCommand s) := by
  simp [whenReady, (faulted_iff s).2 hf, Nat.ne_of_gt hL]

theorem whenReady_of_zeroLength {s : State} (h : s.build.L = 0) (k : Result) :
    whenReady s k = .refused .zeroLength := by
  simp [whenReady, h]

/-- Checking readiness twice is checking it once. -/
theorem whenReady_twice (s : State) (k : Result) : whenReady s (whenReady s k) = whenReady s k := by
  unfold whenReady; split
  · rfl
  · split <;> rfl

/-- A command that answers a next state was either ignored by a faulted block or went on in a ready one. -/
theorem whenReady_next {s t : State} {k : Result} (h : whenReady s k = .next t) :
    (0 < s.build.L ∧ s.status.fault ≠ .none ∧ t = ignoreCommand s) ∨ (Ready s ∧ k = .next t) := by
  unfold whenReady at h
  split at h
  · cases h
  · rename_i hL
    split at h
    · rename_i hf
      cases h
      exact .inl ⟨Nat.pos_of_ne_zero hL, (faulted_iff s).1 hf, rfl⟩
    · rename_i hf
      exact .inr ⟨⟨Nat.pos_of_ne_zero hL, (faulted_eq_false_iff s).1 (by simpa using hf)⟩, h⟩

theorem whenConstructed_of_running {s : State} {T : RuleNum} {S : List Bit} (h : Running s T S)
    (k : RuleNum → List Bit → Result) : whenConstructed s k = k T S := by
  obtain ⟨-, hi, hr, hc⟩ := h
  simp [whenConstructed, constructed, hi, hr, hc]

theorem whenConstructed_of_not_init {s : State} (h : s.status.init = false) (k : RuleNum → List Bit → Result) :
    whenConstructed s k = .next (raiseFault .uninit s) := by
  simp [whenConstructed, constructed, h]

/-- STEP or RUN on a ready block either recorded UNINIT or ran on the table and the generation the registers hold. -/
theorem whenConstructed_next {s t : State} {k : RuleNum → List Bit → Result} (h : whenConstructed s k = .next t) :
    (s.status.init = false ∧ t = raiseFault .uninit s) ∨
    ∃ T S, s.status.init = true ∧ s.rule = some T ∧ s.cells = some S ∧ k T S = .next t := by
  unfold whenConstructed constructed at h
  split at h
  · rename_i hi
    split at h
    · rename_i T S hr hc
      exact .inr ⟨T, S, hi, hr, hc, h⟩
    · cases h
  · rename_i hi
    cases h
    exact .inl ⟨by simpa using hi, rfl⟩

theorem seedPresentable_iff (b : Build) (seed : List Int) :
    seedPresentable b seed = true ↔ seedLengthOk b seed = true ∧ seedCellsOk b seed = true := by
  simp [seedPresentable]

theorem seedPresentable_length {b : Build} {seed : List Int} (h : seedPresentable b seed = true) :
    seed.length = b.L := by
  simpa [seedLengthOk] using ((seedPresentable_iff b seed).1 h).1

theorem matrixPresentable_iff (b : Build) (m : CellMatrix) :
    matrixPresentable b m = true ↔ matrixSizeOk b m = true ∧ matrixCellsOk b m = true := by
  simp [matrixPresentable]

theorem sampleSeed_of_presentable {s : State} (h : seedPresentable s.build s.ports.seedIn = true)
    (k : List Int → Result) : sampleSeed s k = k s.ports.seedIn := by
  have := (seedPresentable_iff _ _).1 h
  simp [sampleSeed, this.1, this.2]

theorem sampleSeed_next {s t : State} {k : List Int → Result} (h : sampleSeed s k = .next t) :
    seedPresentable s.build s.ports.seedIn = true ∧ k s.ports.seedIn = .next t := by
  unfold sampleSeed at h
  split at h
  · split at h
    · exact ⟨(seedPresentable_iff _ _).2 ⟨‹_›, ‹_›⟩, h⟩
    · cases h
  · cases h

theorem sampleMatrix_of_presentable {s : State} (h : matrixPresentable s.build s.ports.matIn = true)
    (k : CellMatrix → Result) : sampleMatrix s k = k s.ports.matIn := by
  have := (matrixPresentable_iff _ _).1 h
  simp [sampleMatrix, this.1, this.2]

theorem sampleMatrix_next {s t : State} {k : CellMatrix → Result} (h : sampleMatrix s k = .next t) :
    matrixPresentable s.build s.ports.matIn = true ∧ k s.ports.matIn = .next t := by
  unfold sampleMatrix at h
  split at h
  · split at h
    · exact ⟨(matrixPresentable_iff _ _).2 ⟨‹_›, ‹_›⟩, h⟩
    · cases h
  · cases h

end Sys2Proof.Machine
end

