-- ==== Sys2Proof/Laws/Stepper.lean ====
section
/-! SUPPORT. Small facts about the next generation and about what RUN collects. -/

namespace Sys2Proof.Machine

@[simp] theorem nextGen_length (T : RuleNum) (S : List Bit) : (nextGen T S).length = S.length := by
  simp [nextGen]

@[simp] theorem rowOf_length (S : List Bit) : (rowOf S).length = S.length := by
  simp [rowOf]

@[simp] theorem advance_zero (T : RuleNum) (S : List Bit) : advance T 0 S = S := rfl

@[simp] theorem advance_succ (T : RuleNum) (n : Nat) (S : List Bit) :
    advance T (n + 1) S = advance T n (nextGen T S) := rfl

@[simp] theorem capturedRows_zero (T : RuleNum) (S : List Bit) : capturedRows T 0 S = [] := rfl

@[simp] theorem capturedRows_succ (T : RuleNum) (n : Nat) (S : List Bit) :
    capturedRows T (n + 1) S = rowOf S :: capturedRows T n (nextGen T S) := rfl

@[simp] theorem advance_length (T : RuleNum) (n : Nat) (S : List Bit) : (advance T n S).length = S.length := by
  induction n generalizing S with
  | zero => rfl
  | succ n ih => simp [ih]

@[simp] theorem capturedRows_length (T : RuleNum) (n : Nat) (S : List Bit) : (capturedRows T n S).length = n := by
  induction n generalizing S with
  | zero => rfl
  | succ n ih => simp [ih]

theorem toInt_zero_or_one (b : Bit) : toInt b = 0 ∨ toInt b = 1 := by
  cases b <;> simp [toInt]

/-- Every captured row has the length of the generation, and its entries are 0 or 1. -/
theorem mem_capturedRows {T : RuleNum} {n : Nat} {S : List Bit} {row : List Int} (h : row ∈ capturedRows T n S) :
    row.length = S.length ∧ ∀ v ∈ row, v = 0 ∨ v = 1 := by
  induction n generalizing S with
  | zero => simp at h
  | succ n ih =>
    rcases List.mem_cons.1 h with rfl | h
    · refine ⟨rowOf_length S, fun v hv => ?_⟩
      obtain ⟨b, -, rfl⟩ := List.mem_map.1 hv
      exact toInt_zero_or_one b
    · simpa using ih h

theorem lit_iff (v : Int) : lit v = true ↔ 0 < v := by
  by_cases h : 0 < v <;> simp [lit, toBit, h]

end Sys2Proof.Machine
end

