-- ==== Sys2Proof/Laws/Exec.lean ====
section
/-! SUPPORT. Everything a command, and a step, can do when it answers a next state; later proofs cite these and do not
unfold the meanings. -/

namespace Sys2Proof.Machine

/-- The effect a command has on a block that is ready for it, and what it needs for that. -/
def Effect (s t : State) : Instr → Prop
  | .init rule => seedPresentable s.build s.ports.seedIn = true ∧
      t = respond .unit (construct rule (seedBits s.ports.seedIn) s)
  | .step => (s.status.init = false ∧ t = raiseFault .uninit s) ∨
      ∃ T S, Running s T S ∧ t = respond .unit (writeCells (nextGen T S) s)
  | .run n => (s.status.init = false ∧ t = raiseFault .uninit s) ∨
      ∃ T S, Running s T S ∧ t = respond (.rows (capturedRows T n S)) (writeCells (advance T n S) s)
  | .rtget rule l c r => t = respond (.bit (tableGet rule l c r)) s
  | .renderAscii => t = respond (.text (asciiText s.ports.matIn)) s
  | .renderHalf fg bg => t = respond (.text (halfText fg bg s.ports.matIn)) s
  | .renderBraille fg bg => t = respond (.text (brailleText fg bg s.ports.matIn)) s

/-- A command that answers a next state was ignored by a faulted block or had its effect on a ready one. -/
theorem exec_next {i : Instr} {s t : State} (h : exec i s = .next t) :
    (0 < s.build.L ∧ s.status.fault ≠ .none ∧ t = ignoreCommand s) ∨ (Ready s ∧ Effect s t i) := by
  cases i with
  | init rule =>
    refine (whenReady_next h).imp id fun ⟨hr, h⟩ => ⟨hr, ?_⟩
    obtain ⟨hp, h⟩ := sampleSeed_next h
    exact ⟨hp, by cases h; rfl⟩
  | step =>
    refine (whenReady_next h).imp id fun ⟨hr, h⟩ => ⟨hr, (whenConstructed_next h).imp id ?_⟩
    rintro ⟨T, S, hi, hT, hS, h⟩
    exact ⟨T, S, ⟨hr, hi, hT, hS⟩, by cases h; rfl⟩
  | run n =>
    refine (whenReady_next h).imp id fun ⟨hr, h⟩ => ⟨hr, (whenConstructed_next h).imp id ?_⟩
    rintro ⟨T, S, hi, hT, hS, h⟩
    exact ⟨T, S, ⟨hr, hi, hT, hS⟩, by cases h; rfl⟩
  | rtget rule l c r =>
    exact (whenReady_next h).imp id fun ⟨hr, h⟩ => ⟨hr, by cases h; rfl⟩
  | renderAscii =>
    exact (whenReady_next h).imp id fun ⟨hr, h⟩ => ⟨hr, by cases (sampleMatrix_next h).2; rfl⟩
  | renderHalf fg bg =>
    exact (whenReady_next h).imp id fun ⟨hr, h⟩ => ⟨hr, by cases (sampleMatrix_next h).2; rfl⟩
  | renderBraille fg bg =>
    exact (whenReady_next h).imp id fun ⟨hr, h⟩ => ⟨hr, by cases (sampleMatrix_next h).2; rfl⟩

/-- A meaning checks readiness first, so a check before it changes nothing. -/
theorem whenReady_exec (i : Instr) (s : State) : whenReady s (exec i s) = exec i s := by
  cases i <;> exact whenReady_twice s _

/-- Everything executing the word on `cmd` can do: it is ignored, it is illegal, or it is a decoded command. -/
theorem executeWord_next {s t : State} (h : executeWord s = .next t) :
    0 < s.build.L ∧
      ((s.status.fault ≠ .none ∧ t = ignoreCommand s) ∨
       (s.status.fault = .none ∧ (∃ e, decode s.ports.cmd = .error e) ∧ t = raiseFault .illegalCmd s) ∨
       ∃ i, s.status.fault = .none ∧ decode s.ports.cmd = .ok i ∧ Effect s t i) := by
  rcases whenReady_next h with ⟨hL, hf, rfl⟩ | ⟨⟨hL, hf⟩, h⟩
  · exact ⟨hL, .inl ⟨hf, rfl⟩⟩
  · refine ⟨hL, .inr ?_⟩
    split at h
    · cases h; exact .inl ⟨hf, ⟨_, ‹_›⟩, rfl⟩
    · rename_i i hi
      rcases exec_next h with ⟨-, hf', -⟩ | ⟨-, he⟩
      · exact absurd hf hf'
      · exact .inr ⟨i, hf, hi, he⟩

/-- Everything a step can do: nothing, a reset, or executing a word with its operands on the ports. -/
theorem step_next {s t : State} (h : step s = .next t) :
    (s.pending = [] ∧ t = s) ∨
    (∃ rest, s.pending = .rst :: rest ∧ 0 < s.build.L ∧ t = resetBlock (dequeue rest s)) ∨
    ∃ p rest, s.pending = .command p :: rest ∧ executeWord (latchPorts p (dequeue rest s)) = .next t := by
  unfold step at h
  split at h
  · cases h; exact .inl ⟨‹_›, rfl⟩
  · rename_i a rest hp
    cases a with
    | rst =>
      refine .inr (.inl ⟨rest, hp, ?_⟩)
      simp only [takeAction] at h
      split at h
      · cases h
      · cases h; exact ⟨Nat.pos_of_ne_zero ‹_›, rfl⟩
    | command p => exact .inr (.inr ⟨p, rest, hp, h⟩)

/-- The model's own `runFor` is the run of the host's interface. -/
theorem runFor_eq_core_run (k : Nat) (s : State) : runFor k s = Sys2Proof.core.run k s := by
  induction k generalizing s with
  | zero => rfl
  | succ k ih =>
    have hs : Sys2Proof.core.step s = step s := rfl
    simp only [runFor, Host.Core.run, hs]
    cases step s with
    | next t => exact ih t
    | fault f => rfl
    | refused r => rfl

end Sys2Proof.Machine
end

