-- ==== Sys2Proof/Laws/PerInstr.lean ====
section
/-! SUPPORT. Families of statements made per command. `EncodesItsRow`: the word of a command matches the row of the
opcode map that has the command's mnemonic (30_encoding.md R61, R67). -/

namespace Sys2Proof.Laws.EncodesItsRow

/-- The word of a command matches its own row. -/
def Statement (i : Instr) : Prop :=
  ∃ r ∈ opcodeTable, r.mnemonic = mnemonicOf i ∧ encode i &&& r.mask = r.pattern

theorem init (rule : RuleNum) : Statement (.init rule) := by
  refine ⟨_, List.mem_cons_self, rfl, ?_⟩
  revert rule; decide

theorem step : Statement .step :=
  ⟨_, .tail _ (.head _), rfl, by decide⟩

theorem run (n : Nat) : Statement (.run n) := by
  refine ⟨_, .tail _ (.tail _ (.head _)), rfl, (formatC_match _).2 ?_⟩
  ext i hi
  simp only [encode, formatC, opField, BitVec.getElem_extractLsb', BitVec.getLsbD_append]
  interval_cases i <;> simp

theorem rtget (rule : RuleNum) (l c r : Bit) : Statement (.rtget rule l c r) := by
  refine ⟨_, .tail _ (.tail _ (.tail _ (.head _))), rfl, ?_⟩
  revert rule; cases l <;> cases c <;> cases r <;> decide

theorem renderAscii : Statement .renderAscii :=
  ⟨_, .tail _ (.tail _ (.tail _ (.tail _ (.head _)))), rfl, by decide⟩

theorem renderHalf (fg bg : Color) : Statement (.renderHalf fg bg) := by
  refine ⟨_, .tail _ (.tail _ (.tail _ (.tail _ (.tail _ (.head _))))), rfl, ?_⟩
  cases fg <;> cases bg <;> decide

theorem renderBraille (fg bg : Color) : Statement (.renderBraille fg bg) := by
  refine ⟨_, .tail _ (.tail _ (.tail _ (.tail _ (.tail _ (.tail _ (.head _)))))), rfl, ?_⟩
  cases fg <;> cases bg <;> decide

end Sys2Proof.Laws.EncodesItsRow
end

