-- ==== Sys2Proof/Laws/Safety.lean ====
section
/-! SUPPORT. The small lemmas of the terms claims use: where the last command of a queue stands, and what a good end is
once the observation is known. -/

namespace Sys2Proof.Machine

@[simp] theorem actionsToEnd_nil : actionsToEnd [] = none := rfl

@[simp] theorem actionsToEnd_rst (rest : List HostAction) :
    actionsToEnd (.rst :: rest) = (actionsToEnd rest).map (· + 1) := rfl

@[simp] theorem actionsToEnd_command (p : Ports) (rest : List HostAction) :
    actionsToEnd (.command p :: rest) = some ((actionsToEnd rest).getD 0 + 1) := rfl

@[simp] theorem actionsToEnd_resets (n : Nat) : actionsToEnd (List.replicate n .rst) = none := by
  induction n with
  | zero => rfl
  | succ n ih => simp [List.replicate_succ, ih]

/-- Resets after the last command are not counted. -/
@[simp] theorem actionsToEnd_append_resets (as : List HostAction) (n : Nat) :
    actionsToEnd (as ++ List.replicate n .rst) = actionsToEnd as := by
  induction as with
  | nil => simp
  | cons a as ih => cases a <;> simp [ih]

/-- The last command is the one after which only resets come. -/
theorem actionsToEnd_last (front : List HostAction) (p : Ports) (n : Nat) :
    actionsToEnd (front ++ .command p :: List.replicate n .rst) = some (front.length + 1) := by
  induction front with
  | nil => simp
  | cons a front ih => cases a <;> simp [ih]

/-- The last command stands within the queue. -/
theorem actionsToEnd_le {as : List HostAction} {k : Nat} (h : actionsToEnd as = some k) : k ≤ as.length := by
  induction as generalizing k with
  | nil => cases h
  | cons a as ih => cases a <;> cases hj : actionsToEnd as <;> simp_all <;> omega

/-- A queue with a command has a last one. -/
theorem actionsToEnd_of_command {as : List HostAction} {p : Ports} (h : .command p ∈ as) :
    ∃ k, actionsToEnd as = some k := by
  induction as with
  | nil => cases h
  | cons a as ih =>
    cases a with
    | rst => obtain ⟨k, hk⟩ := ih (by simpa using h); exact ⟨k + 1, by simp [hk]⟩
    | command q => exact ⟨_, rfl⟩

/-- A sequence that reaches its end is observed there. -/
theorem observation_of_run {s t : State} {k : Nat} (hk : actionsToEnd s.pending = some k) (h : runFor k s = .next t) :
    observation s = some { responses := transcript k s, cells := t.cells, status := t.status } := by
  simp only [observation, hk, h]

/-- A sequence that reaches its end has a good one exactly when no fault is recorded there. -/
theorem goodEnd_iff {s t : State} {k : Nat} (hk : actionsToEnd s.pending = some k) (h : runFor k s = .next t) :
    GoodEnd s ↔ t.status.fault = .none := by
  simp [GoodEnd, observation_of_run hk h]

end Sys2Proof.Machine
end

