-- ==== Sys2Proof/Tests/Slice0.lean ====
section
/-! SUPPORT. The model's own tests, expected results from the vectors of 95_test_vectors.md (named in each docstring)
or worked by hand from the rule cited, one step each; and for every obligation with hypotheses a witness that meets
them. -/

namespace Sys2Proof.Tests

open Sys2Proof.Machine

/- ## Helpers -/

/-- A build of `L` cells without bounds. -/
def buildOf (L : Nat) : Build := { L := L, cellW := .unbounded, maxRows := none, maxCols := none }

/-- Ports carrying a word, a seed and a matrix. -/
def portsOf (cmd : Word) (seed : List Int) (m : CellMatrix) : Ports := { cmd := cmd, seedIn := seed, matIn := m }

/-- Cells from 0/1. -/
def bits (S : List Nat) : List Bit := S.map fun n => if n = 1 then .alive else .dead

/-- A constructed block holding a rule and a generation, an operand on each port, nothing waiting. -/
def runningBlock (rule : RuleNum) (S : List Nat) (m : CellMatrix) : State :=
  { build := buildOf S.length
    status := { init := true, fault := .none }
    rule := some rule
    cells := some (bits S)
    rsp := some .unit
    ports := portsOf 0 (S.map fun n => (n : Int)) m
    pending := [] }

/-- A block after reset with operands on its ports and actions waiting. -/
def freshBlock (L : Nat) (p : Ports) (as : List HostAction) : State :=
  { State.resetOf (buildOf L) with ports := p, pending := as }

/-- The response an outcome shows. -/
def rspOf : Result → Option Response
  | .next t => t.rsp
  | _ => none

/-- The cells an outcome holds. -/
def cellsOf : Result → Option (List Bit)
  | .next t => t.cells
  | _ => none

/-- `status_out` of an outcome. -/
def statusOf : Result → Option (BitVec 3)
  | .next t => some (statusOut t)
  | _ => none

/-- The code points of a text response. -/
def codesOf (r : Result) : List Nat :=
  match rspOf r with
  | some (.text t) => t.map Char.toNat
  | _ => []

/- ## Well-formedness: each check with a term it refuses -/

theorem test_wf_refuses_a_count_of_29_bits : Instr.wf (.run (2 ^ 28)) = false := by decide

theorem test_wf_admits_the_largest_count : Instr.wf (.run (2 ^ 28 - 1)) = true := by decide

theorem test_seed_of_wrong_length_is_not_presentable : seedPresentable (buildOf 3) [1, 0] = false := by decide

theorem test_element_outside_the_port_is_not_presentable :
    seedPresentable { L := 1, cellW := .unsigned 8, maxRows := none, maxCols := none } [256] = false ∧
    seedPresentable { L := 1, cellW := .unsigned 8, maxRows := none, maxCols := none } [255] = true ∧
    seedPresentable { L := 1, cellW := .signed 8, maxRows := none, maxCols := none } [-129] = false ∧
    seedPresentable { L := 1, cellW := .signed 8, maxRows := none, maxCols := none } [-128] = true := by decide

theorem test_matrix_above_its_bounds_is_not_presentable :
    matrixPresentable { L := 1, cellW := .unbounded, maxRows := some 1, maxCols := none } [[], []] = false ∧
    matrixPresentable { L := 1, cellW := .unbounded, maxRows := none, maxCols := some 2 } [[1], [1, 1, 1]] = false ∧
    matrixPresentable { L := 1, cellW := .unbounded, maxRows := some 2, maxCols := some 3 } [[1], [1, 1, 1]] = true := by
  decide

/- ## Decoding: words written out bit by bit from the formats of 30_encoding.md R61 -/

/-- OP 0001, 20 zero bits, RULE 01011010 (90). -/
theorem test_decode_init : decode 0b00010000000000000000000001011010#32 = .ok (.init 90) := by decide

/-- OP 0010, 28 zero bits; any other word with this OP is illegal (D-5). -/
theorem test_decode_step :
    decode 0b00100000000000000000000000000000#32 = .ok .step ∧
    decode 0x20000001#32 = .error .reservedField := by decide

/-- OP 0011, N = 28 ones (D-7). -/
theorem test_decode_run : decode 0b00111111111111111111111111111111#32 = .ok (.run 268435455) := by decide

/-- OP 0100, 12 zero bits, RULE 01101110 (110), 5 zero bits, PL PC PR = 101 (D-8 to D-10). -/
theorem test_decode_rtget :
    decode 0b01000000000000000110111000000101#32 = .ok (.rtget 110 .alive .dead .alive) ∧
    decode 0x40006E08#32 = .error .reservedField ∧ decode 0x40016E05#32 = .error .reservedField := by decide

/-- OP 0101, 28 zero bits. -/
theorem test_decode_render_ascii : decode 0b01010000000000000000000000000000#32 = .ok .renderAscii := by decide

/-- OP 0110, 22 zero bits, FG 111, BG 000 (D-12, D-13). -/
theorem test_decode_render_half :
    decode 0b01100000000000000000000000111000#32 = .ok (.renderHalf .white .black) ∧
    decode 0x60000040#32 = .error .reservedField := by decide

/-- OP 0111, 22 zero bits, FG 001, BG 110 (D-14). -/
theorem test_decode_render_braille :
    decode 0b01110000000000000000000000001110#32 = .ok (.renderBraille .red .cyan) := by decide

/-- Reserved opcodes: D-15, D-16, D-17. -/
theorem test_decode_reserved :
    decode 0#32 = .error .reservedOpcode ∧ decode 0x80000000#32 = .error .reservedOpcode ∧
    decode 0xFFFFFFFF#32 = .error .reservedOpcode := by decide

/-- The words of 30_encoding.md R72's table. -/
theorem test_encode_worked_words :
    encode (.init 90) = 0x1000005A#32 ∧ encode (.run 4) = 0x30000004#32 ∧
    encode (.rtget 110 .alive .dead .alive) = 0x40006E05#32 ∧
    encode (.renderHalf .white .black) = 0x60000038#32 ∧ encode (.renderBraille .white .black) = 0x70000038#32 := by
  decide

theorem test_decode_table_word :
    decodeTableWord 32 0x1000005A = some (.init 90) ∧ decodeTableWord 32 0x10000100 = none := by decide

/- ## One command each -/

/-- E1: rule 90's table in pattern order. -/
theorem test_table_of_rule_90 : tableOf 90 = bits [0, 1, 0, 1, 1, 0, 1, 0] := by decide

/-- T-9, T-10. -/
theorem test_rtget :
    rspOf (exec (.rtget 110 .alive .dead .alive) State.reset) = some (.bit .alive) ∧
    rspOf (exec (.rtget 110 .alive .alive .alive) State.reset) = some (.bit .dead) := by decide

/-- I-2: any value greater than 0 is Alive. -/
theorem test_init_converts_the_seed :
    cellsOf (exec (.init 30) (freshBlock 4 (portsOf 0 [0, 7, 1, 300] []) [])) = some (bits [0, 1, 1, 1]) := by decide

/-- I-4, I-5: a second INIT replaces the first; a negative element is Dead. -/
theorem test_init_again_replaces :
    cellsOf (exec (.init 90) { runningBlock 30 [1, 1, 0] [] with ports := portsOf 0 [-1, 0, 2] [] })
      = some (bits [0, 0, 1]) := by decide

/-- S-2: both edge cells see across the wrap. -/
theorem test_step_wraps : cellsOf (exec .step (runningBlock 90 [0, 1, 0, 1, 0] [])) = some (bits [1, 0, 0, 0, 1]) := by
  decide

/-- S-1 and the negative vector H-N1: the step reads the old generation, not cells it has already written. -/
theorem test_step_reads_the_snapshot :
    cellsOf (exec .step (runningBlock 90 [0, 0, 1, 0, 0] [])) = some (bits [0, 1, 0, 1, 0]) := by decide

/-- R-3: the rows. -/
theorem test_run_rows :
    rspOf (exec (.run 3) (runningBlock 90 [0, 0, 1, 0, 0] []))
      = some (.rows [[0, 0, 1, 0, 0], [0, 1, 0, 1, 0], [1, 0, 0, 0, 1]]) := by decide

/-- R-3: the generation left behind is one past the last row. -/
theorem test_run_leaves_one_past_the_last_row :
    cellsOf (exec (.run 3) (runningBlock 90 [0, 0, 1, 0, 0] [])) = some (bits [1, 1, 0, 1, 1]) := by decide

/-- A-4: ragged and empty rows; 2 is lit. -/
theorem test_render_ascii :
    rspOf (exec .renderAscii (freshBlock 1 (portsOf 0 [0] [[1], [0, 2, 0], []]) []))
      = some (.text ['#', '\n', '.', '#', '.', '\n', '\n']) := by decide

/-- H-1: one glyph, the top cell on the background channel. -/
theorem test_render_half :
    codesOf (exec (.renderHalf .white .black) (freshBlock 1 (portsOf 0 [0] [[1, 0], [0]]) []))
      = [0x1B, 0x5B, 0x34, 0x37, 0x6D, 0x1B, 0x5B, 0x33, 0x30, 0x6D, 0x2584, 0x1B, 0x5B, 0x30, 0x6D, 0x0A] := by decide

/-- H-5: fewer than two rows. -/
theorem test_render_half_of_one_row :
    rspOf (exec (.renderHalf .white .black) (freshBlock 1 (portsOf 0 [0] [[1, 0, 1]]) [])) = some (.text []) := by decide

/-- B-7: the fifth row and the odd column are dropped. -/
theorem test_render_braille :
    codesOf (exec (.renderBraille .yellow .magenta)
        (freshBlock 1 (portsOf 0 [0] [[1, 0, 1, 1, 9], [0, 0, 0, 1], [0, 0, 1, 0], [1, 0, 0, 0], [1, 1]]) []))
      = [0x1B, 0x5B, 0x33, 0x33, 0x6D, 0x1B, 0x5B, 0x34, 0x35, 0x6D, 0x2841, 0x281D, 0x0A, 0x1B, 0x5B, 0x30, 0x6D] := by
  decide

/-- B-5: fewer than four rows. -/
theorem test_render_braille_of_three_rows :
    codesOf (exec (.renderBraille .white .black)
        (freshBlock 1 (portsOf 0 [0] [[1, 0, 1], [1, 0, 1], [1, 0, 1]]) []))
      = [0x1B, 0x5B, 0x33, 0x37, 0x6D, 0x1B, 0x5B, 0x34, 0x30, 0x6D, 0x1B, 0x5B, 0x30, 0x6D] := by decide

/-- U+2584 in UTF-8 (general knowledge: E2 96 84). -/
theorem test_utf8_of_half_block : textBytes [halfBlock] = [0xE2#8, 0x96#8, 0x84#8] := by decide

/- ## Faults, reset, fetching -/

/-- F-3: an illegal word before INIT is ILLEGAL_CMD, not UNINIT. -/
theorem test_illegal_word_outranks_uninit :
    statusOf (step (freshBlock 5 (portsOf 0 [] []) [.command (portsOf 0x20000001 [] [])])) = some 0b010 := by decide

/-- F-1, R-7: STEP, and RUN 0, before INIT. -/
theorem test_uninit :
    statusOf (step (freshBlock 5 (portsOf 0 [] []) [.command (portsOf 0x20000000 [] [])])) = some 0b100 ∧
    statusOf (step (freshBlock 5 (portsOf 0 [] []) [.command (portsOf 0x30000000 [] [])])) = some 0b100 := by decide

/-- F-4: the STEP after a fault is ignored. -/
theorem test_faulted_block_ignores_a_step :
    cellsOf (step { runningBlock 90 [0, 0, 1, 0, 0] [] with
      status := { init := true, fault := .illegalCmd }, rsp := none,
      pending := [.command (portsOf 0x20000000 [] [])] }) = some (bits [0, 0, 1, 0, 0]) := by decide

/-- F-6: reset clears the fault and takes the values away. -/
theorem test_reset_clears :
    statusOf (step { runningBlock 90 [1] [] with status := { init := true, fault := .uninit }, pending := [.rst] })
      = some 0b000 ∧
    cellsOf (step { runningBlock 90 [1] [] with pending := [.rst] }) = none := by decide

/-- The word put in front of the queue is the one the next step runs. -/
theorem test_fetch_runs_the_word :
    statusOf (step (State.reset.withFetchWord 32 0x1000005A)) = some 0b001 ∧
    rspOf (step (State.reset.withFetchWord 32 0x40006E05)) = some (.bit .alive) ∧
    statusOf (step (State.reset.withFetchWord 32 0x20000000)) = some 0b100 := by decide

/- ## The assembler: rows of 30_encoding.md R72 -/

theorem test_assemble_init :
    assembleText (buildOf 5) (portsOf 0 [] []) "INIT 90, [0,0,1,0,0]".toList
      = .ok (portsOf 0x1000005A [0, 0, 1, 0, 0] []) := by decide

theorem test_assemble_render_half :
    assembleText (buildOf 5) (portsOf 0 [] []) "RENDER_HALF White, Black [[1,0],[0]]".toList
      = .ok (portsOf 0x60000038 [] [[1, 0], [0]]) := by decide

/-- Hexadecimal and binary numbers, one command a line. -/
theorem test_assemble_program :
    assembleProgram (buildOf 5) (portsOf 0 [] []) "RUN 0x4\nRTGET 0b1101110, 1, 0, 1".toList
      = .ok [.command (portsOf 0x30000004 [] []), .command (portsOf 0x40006E05 [] [])] := by decide

/-- The refusals R72 lists. -/
theorem test_assembler_refusals :
    assemble (buildOf 3) (portsOf 0 [] []) (.init 256 [0, 0, 0]) = .error .ruleTooLarge ∧
    assemble (buildOf 3) (portsOf 0 [] []) (.init 255 [0, 0]) = .error .seedLength ∧
    assemble (buildOf 3) (portsOf 0 [] []) (.run (2 ^ 28)) = .error .countTooLarge ∧
    assemble (buildOf 3) (portsOf 0 [] []) (.rtget 1 0 2 0) = .error .neighbourNotABit ∧
    assemble (buildOf 3) (portsOf 0 [] []) (.renderHalf ['P', 'i', 'n', 'k'] ['R', 'e', 'd'] []) = .error .unknownColour := by
  decide

/- ## Witnesses: concrete states and operands that meet the hypotheses of each obligation that has any -/

/-- A ready block before INIT (L = 1) with one action waiting. -/
def waiting (a : HostAction) : State := freshBlock 1 (portsOf 0 [1] [[1]]) [a]

/-- A constructed block (L = 3) with one command waiting, operands on the ports. -/
def waitingRunning (w : Word) : State :=
  { runningBlock 110 [1, 0, 1] [[1, 0], [0]] with pending := [.command (portsOf w [0, 1, 0] [[1]])] }

/-- A constructed, faulted block with one action waiting. -/
def waitingFaulted (a : HostAction) : State :=
  { runningBlock 110 [1, 0, 1] [] with status := { init := true, fault := .illegalCmd }, rsp := none, pending := [a] }

theorem running_is_running : Running (runningBlock 110 [1, 0, 1] [[1], []]) 110 (bits [1, 0, 1]) :=
  ⟨⟨by decide, rfl⟩, rfl, rfl, rfl⟩

theorem running_has_inv : BlockInv (runningBlock 110 [1, 0, 1] [[1], []]) where
  build := by decide
  rule := rfl
  cells := rfl
  length := by intro S h; cases h; rfl
  quiet := fun h => absurd rfl h
  noInternal := by decide
  response := by intro r h; cases h; rfl

theorem witness_DecodeOfEncodeGivesTheCommandBack :
    Instr.wf (.run 0) = true ∧ Instr.wf (.run (2 ^ 28 - 1)) = true := by decide

theorem witness_EncodeOfDecodeGivesTheWordBack : decode 0x7000003F#32 = .ok (.renderBraille .white .white) := by decide

theorem witness_OpcodeRowsNeverOverlap :
    (∃ r ∈ opcodeTable, rowMatches 0x7000003F#32 r = true) ∧ ∀ r ∈ opcodeTable, rowMatches 0#32 r = false := by decide

theorem witness_IllegalWordsAreExactlyTheReservedOnes :
    Ready (freshBlock 1 (portsOf 0 [] []) []) ∧ decode 0#32 = .error .reservedOpcode :=
  ⟨⟨by decide, rfl⟩, by decide⟩

theorem witness_HalvingGivesTheSameTable : 0 < 8 ∧ 7 < 8 := by decide

theorem witness_RtgetAnswersOneTableEntry : Ready State.reset := ⟨by decide, rfl⟩

theorem witness_SeedElementIsAliveIffPositive : (0 : Int) < 1 ∧ (0 : Int) ≤ 0 ∧ (-1 : Int) ≤ 0 := by decide

theorem witness_InitConstructsFromSeedAndRule :
    Ready (runningBlock 110 [1] []) ∧ seedPresentable (buildOf 1) (runningBlock 110 [1] []).ports.seedIn = true :=
  ⟨⟨by decide, rfl⟩, by decide⟩

theorem witness_InitErasesWhatTheBlockHeld :
    Ready (waitingRunning 0x1000005A) ∧
    Ready { waitingRunning 0x1000005A with status := { init := false, fault := .none }, rule := none, cells := none } ∧
    decode 0x1000005A#32 = .ok (.init 90) :=
  ⟨⟨by decide, rfl⟩, ⟨by decide, rfl⟩, by decide⟩

theorem witness_NextGenerationReadsTheOldNeighbours :
    leftOf 3 0 = 2 ∧ rightOf 3 2 = 0 ∧ 0 < (bits [1, 0, 1]).length ∧ 2 < (bits [1, 0, 1]).length := by decide

theorem witness_ShortRowsWrapLiterally : 3 ≤ 3 ∧ 0 < 3 ∧ 2 < 3 := by decide

theorem witness_CellDependsOnlyOnItsNeighbourhood :
    (bits [1, 0, 1, 1]).length = (bits [1, 0, 0, 1]).length ∧
    (bits [1, 0, 1, 1])[leftOf 4 0]? = (bits [1, 0, 0, 1])[leftOf 4 0]? ∧
    (bits [1, 0, 1, 1])[0]? = (bits [1, 0, 0, 1])[0]? ∧
    (bits [1, 0, 1, 1])[rightOf 4 0]? = (bits [1, 0, 0, 1])[rightOf 4 0]? := by decide

theorem witness_StepReplacesTheGeneration : Running (runningBlock 30 [1] []) 30 (bits [1]) :=
  ⟨⟨by decide, rfl⟩, rfl, rfl, rfl⟩

theorem witness_RunEmitsEachGenerationThenSteps : Running (runningBlock 110 [1, 0, 1] [[1], []]) 110 (bits [1, 0, 1]) :=
  running_is_running

theorem witness_RunsCompose : Running (runningBlock 110 [1, 0, 1] [[1], []]) 110 (bits [1, 0, 1]) :=
  running_is_running

theorem witness_FirstRowAndShapeOfRunRows :
    Ready (runningBlock 110 [1, 0, 1] []) ∧ seedPresentable (buildOf 3) (runningBlock 110 [1, 0, 1] []).ports.seedIn = true ∧
    Running (runningBlock 110 [1, 0, 1] [[1], []]) 110 (bits [1, 0, 1]) ∧ (bits [1, 0, 1]).length = 3 :=
  ⟨⟨by decide, rfl⟩, by decide, running_is_running, rfl⟩

theorem witness_RulesNinetyAndOneFiftyAreXor : 0 < (bits [1]).length := by decide

theorem witness_RenderAsciiAnswersItsText :
    Ready (waiting .rst) ∧ matrixPresentable (buildOf 1) (waiting .rst).ports.matIn = true :=
  ⟨⟨by decide, rfl⟩, by decide⟩

theorem witness_RenderHalfAnswersItsText :
    Ready (runningBlock 110 [1] [[1], []]) ∧ matrixPresentable (buildOf 1) [[1], []] = true :=
  ⟨⟨by decide, rfl⟩, by decide⟩

theorem witness_RenderBrailleAnswersItsText :
    Ready (runningBlock 110 [1] []) ∧ matrixPresentable (buildOf 1) [] = true :=
  ⟨⟨by decide, rfl⟩, by decide⟩

theorem witness_BrailleTextTakesRowsInFours : ([[1], [], [1, 1]] : CellMatrix).length < 4 := by decide

theorem witness_BrailleGlyphsNameTheirDots :
    0x2800 ≤ 0x2800 ∧ 0x2800 ≤ 0x28FF ∧ brailleGlyph (fun _ _ => 0) ≠ brailleGlyph (fun _ _ => 1) := by decide

theorem witness_EscapeFramingOfTheTwoColouredEncodings :
    halfText .white .black [[1], [0]] = (bgEsc .white ++ fgEsc .black) ++ halfBlock :: (resetEsc ++ [lfChar]) := by decide

theorem witness_EachCommandGivesItsKindOfResponse :
    (∃ t, exec .step (waiting .rst) = .next t ∧ t.status.fault ≠ .none) ∧
    (∃ t, exec (.run 0) (runningBlock 110 [1, 0, 1] []) = .next t ∧ t.status.fault = .none) ∧
    ∃ t, executeWord State.reset = .next t ∧ t.status.fault ≠ .none :=
  ⟨⟨_, rfl, by decide⟩, ⟨_, rfl, rfl⟩, ⟨_, rfl, by decide⟩⟩

theorem witness_StateOutShowsState :
    (runningBlock 110 [1, 0, 1] []).status.init = true ∧ (runningBlock 110 [1, 0, 1] []).cells = some (bits [1, 0, 1]) ∧
    State.reset.status.init = false := ⟨rfl, rfl, rfl⟩

theorem witness_NoCommandClearsStatus :
    ∃ t, exec .step (waitingFaulted .rst) = .next t ∧ (waitingFaulted .rst).status.init = true ∧
      (waitingFaulted .rst).status.fault ≠ .none := ⟨_, rfl, rfl, by decide⟩

theorem witness_OnlyInitAndResetWriteRule :
    (∃ t, step (waitingRunning 0x1000005A) = .next t ∧ t.rule ≠ (waitingRunning 0x1000005A).rule) ∧
    ∃ t, step (waitingFaulted .rst) = .next t ∧ t.rule ≠ (waitingFaulted .rst).rule :=
  ⟨⟨_, rfl, by decide⟩, ⟨_, rfl, by decide⟩⟩

theorem witness_OnlyInitStepRunAndResetWriteState :
    (∃ t, step (waitingRunning 0x20000000) = .next t ∧ t.cells ≠ (waitingRunning 0x20000000).cells) ∧
    (∃ t, step (waitingRunning 0x30000001) = .next t ∧ t.cells ≠ (waitingRunning 0x30000001).cells) ∧
    ∃ t, step (waitingFaulted .rst) = .next t ∧ t.cells ≠ (waitingFaulted .rst).cells :=
  ⟨⟨_, rfl, by decide⟩, ⟨_, rfl, by decide⟩, ⟨_, rfl, by decide⟩⟩

theorem witness_RtgetAndRenderFrame :
    (∃ t, exec (.rtget 1 .dead .dead .dead) State.reset = .next t) ∧
    (∃ t, exec .renderAscii State.reset = .next t) ∧
    (∃ t, exec (.renderHalf .red .red) State.reset = .next t) ∧
    ∃ t, exec (.renderBraille .red .red) State.reset = .next t :=
  ⟨⟨_, rfl⟩, ⟨_, rfl⟩, ⟨_, rfl⟩, ⟨_, rfl⟩⟩

theorem witness_StepAndRunFrame :
    (∃ t, exec .step (runningBlock 110 [1, 0, 1] []) = .next t) ∧
    (∃ t, exec (.run 2) (runningBlock 110 [1, 0, 1] []) = .next t) ∧
    ∃ t, exec (.run 2) State.reset = .next t ∧ t.status.fault = .uninit :=
  ⟨⟨_, rfl⟩, ⟨_, rfl⟩, ⟨_, rfl, rfl⟩⟩

theorem witness_InitFrame : ∃ t, exec (.init 90) (runningBlock 110 [1, 0, 1] []) = .next t := ⟨_, rfl⟩

theorem witness_RaisingAFaultIsPrecise :
    (Ready (freshBlock 1 (portsOf 0 [] []) []) ∧
      ∃ t, executeWord (freshBlock 1 (portsOf 0 [] []) []) = .next t ∧ t.status.fault ≠ .none) ∧
    ∃ t, executeWord (freshBlock 1 (portsOf 0x30000000 [] []) []) = .next t ∧ t.status.fault ≠ .none :=
  ⟨⟨⟨by decide, rfl⟩, ⟨_, rfl, by decide⟩⟩, ⟨_, rfl, by decide⟩⟩

theorem witness_FaultsAreSticky :
    (0 < (waitingFaulted (.command (portsOf 0 [] []))).build.L ∧
      (waitingFaulted (.command (portsOf 0 [] []))).status.fault ≠ .none ∧
      ∀ a ∈ (waitingFaulted (.command (portsOf 0 [] []))).pending.take 2, a ≠ .rst) ∧
    (∃ t, step (waitingFaulted .rst) = .next t ∧ t.status.fault ≠ (waitingFaulted .rst).status.fault) ∧
    ((waitingFaulted (.command (portsOf 0 [] []))).pending = [] ++ .command (portsOf 0 [] []) :: List.replicate 0 .rst ∧
      ∀ a ∈ ([] : List HostAction), a ≠ .rst) :=
  ⟨by decide, ⟨_, rfl, by decide⟩, rfl, by decide⟩

theorem witness_PriorityOfCauses :
    (waitingFaulted .rst).status.fault ≠ .none ∧
    ((freshBlock 1 (portsOf 0x20000001 [] []) []).status.fault = .none ∧
      decode 0x20000001#32 = .error .reservedField) ∧
    ((freshBlock 1 (portsOf 0x20000000 [] []) []).status.init = false ∧ decode 0x20000000#32 = .ok .step) ∧
    decode 0x30000000#32 = .ok (.run 0) ∧
    ∃ t, executeWord (freshBlock 1 (portsOf 0x20000000 [] []) []) = .next t :=
  ⟨by decide, by decide, by decide, by decide, ⟨_, rfl⟩⟩

theorem witness_UninitExactlyForStepAndRun :
    (Ready State.reset ∧ State.reset.status.init = false) ∧
    ∃ t, exec (.init 90) State.reset = .next t := ⟨⟨⟨by decide, rfl⟩, rfl⟩, ⟨_, rfl⟩⟩

theorem witness_DegenerateInputsAreNotFaults :
    BlockInv (runningBlock 110 [1, 0, 1] [[1], []]) ∧ (runningBlock 110 [1, 0, 1] [[1], []]).status.init = true ∧
    seedPresentable (buildOf 3) (runningBlock 110 [1, 0, 1] [[1], []]).ports.seedIn = true ∧
    matrixPresentable (buildOf 3) [[1], []] = true :=
  ⟨running_has_inv, rfl, by decide, by decide⟩

/-- A ready block (L = 1) with ports of the given width and bounds, whose operands are given. -/
def narrowBlock (w : CellWidth) (rows cols : Option Nat) (seed : List Int) (m : CellMatrix) : State :=
  { State.reset with build := { L := 1, cellW := w, maxRows := rows, maxCols := cols }, ports := portsOf 0 seed m }

theorem narrowBlock_ready (w : CellWidth) (rows cols : Option Nat) (seed : List Int) (m : CellMatrix) :
    Ready (narrowBlock w rows cols seed m) := ⟨Nat.one_pos, rfl⟩

theorem witness_TheBoundaryRefuses :
    ((freshBlock 0 (portsOf 0 [] []) [.rst]).build.L = 0 ∧ (freshBlock 0 (portsOf 0 [] []) [.rst]).pending = .rst :: []) ∧
    (Ready (freshBlock 2 (portsOf 0 [1] []) []) ∧ (freshBlock 2 (portsOf 0 [1] []) []).ports.seedIn.length ≠ 2) ∧
    (Ready (narrowBlock .unbounded (some 0) none [] [[]]) ∧ 0 < ([[]] : CellMatrix).length) ∧
    (Ready (narrowBlock .unbounded none (some 0) [] [[1]]) ∧ ∃ row ∈ ([[1]] : CellMatrix), 0 < row.length) :=
  ⟨⟨rfl, rfl⟩, ⟨⟨by decide, rfl⟩, by decide⟩, ⟨narrowBlock_ready .., by decide⟩, ⟨narrowBlock_ready .., by decide⟩⟩

theorem witness_TheBoundaryRefuses_an_element :
    (Ready (narrowBlock (.unsigned 8) none none [256] [[256]]) ∧ (2 : Int) ^ 8 ≤ 256) ∧
    (Ready (narrowBlock (.unsigned 8) (some 1) (some 1) [-1] [[-1]]) ∧ (-1 : Int) < 0 ∧ ([[-1]] : CellMatrix).length ≤ 1) ∧
    (Ready (narrowBlock (.signed 8) none none [128] [[128]]) ∧ (2 : Int) ^ 8 ≤ 2 * 128) ∧
    (Ready (narrowBlock (.signed 8) none none [-129] [[-129]]) ∧ 2 * (-129 : Int) < -(2 ^ 8)) :=
  ⟨⟨narrowBlock_ready .., by decide⟩, ⟨narrowBlock_ready .., by decide⟩, ⟨narrowBlock_ready .., by decide⟩,
    ⟨narrowBlock_ready .., by decide⟩⟩

theorem witness_ValuesAfterReset : Ready State.reset ∧ State.reset.status.init = false := ⟨⟨by decide, rfl⟩, rfl⟩

theorem witness_ResetWorksFromEveryState :
    0 < (waitingFaulted .rst).build.L ∧ (waitingFaulted .rst).pending = [.rst] := ⟨by decide, rfl⟩

theorem witness_StepRunsTheDecodedCommand :
    (waitingRunning 0x20000000).pending = [.command (portsOf 0x20000000 [0, 1, 0] [[1]])] ∧
    decode 0x20000000#32 = .ok .step := ⟨rfl, by decide⟩

theorem witness_IdleBlockHoldsItsState : (runningBlock 110 [1, 0, 1] []).pending = [] := rfl

theorem witness_InvHoldsAfterReset : 0 < (buildOf 1).L ∧ 0 < Config.build.L := by decide

theorem witness_EveryStepKeepsInv :
    BlockInv (runningBlock 110 [1, 0, 1] [[1], []]) ∧ ∃ t, step (runningBlock 110 [1, 0, 1] [[1], []]) = .next t :=
  ⟨running_has_inv, ⟨_, rfl⟩⟩

/-- A block with the invariant that is about to take a command. -/
theorem waitingRunning_has_inv : BlockInv (waitingRunning 0x30000002) where
  build := by decide
  rule := rfl
  cells := rfl
  length := by intro S h; cases h; rfl
  quiet := fun h => absurd rfl h
  noInternal := by decide
  response := by intro r h; cases h; rfl

theorem witness_EveryStepKeepsInv_on_a_command :
    BlockInv (waitingRunning 0x30000002) ∧ ∃ t, step (waitingRunning 0x30000002) = .next t :=
  ⟨waitingRunning_has_inv, ⟨_, rfl⟩⟩

theorem witness_EveryPresentableSequenceRunsToItsEnd :
    BlockInv (waitingRunning 0x30000002) ∧
    (∃ p, .command p ∈ (waitingRunning 0x30000002).pending) ∧
    ∀ a ∈ (waitingRunning 0x30000002).pending, Presentable (waitingRunning 0x30000002).build a := by
  refine ⟨waitingRunning_has_inv, ⟨_, List.mem_singleton.2 rfl⟩, fun a ha => ?_⟩
  rw [List.mem_singleton.1 ha]
  exact ⟨by decide, by decide⟩

/-- F-1 and a reset after it: the end is right after the STEP, where UNINIT is recorded, so R215 gives no good end. -/
theorem test_a_reset_after_a_fault_gives_no_good_end :
    (observation (freshBlock 5 (portsOf 0 [] []) [.command (portsOf 0x20000000 [] []), .rst])).map
      (fun o => (o.responses, statusBits o.status)) = some ([], 0b100#3) := by decide

/-- F-6, without its INIT: a reset before the last command belongs to the sequence. -/
theorem test_a_reset_before_the_last_command_gives_a_good_end :
    (observation (freshBlock 5 (portsOf 0 [] [])
        [.command (portsOf 0x20000000 [] []), .rst, .command (portsOf 0x40006E05 [] []), .rst])).map
      (fun o => (o.responses, statusBits o.status)) = some ([.bit .alive], 0b000#3) := by decide

theorem witness_TheEndIsRightAfterTheLastCommand :
    ((waiting (.command (portsOf 0x20000000 [] []))).pending = [] ++ .command (portsOf 0x20000000 [] []) :: List.replicate 0 .rst ∧
      ∃ t, runFor 1 (waiting (.command (portsOf 0x20000000 [] []))) = .next t) ∧
    ∀ a ∈ (waiting .rst).pending, a = .rst :=
  ⟨⟨rfl, ⟨_, rfl⟩⟩, by decide⟩

theorem witness_AssembledLinesDecodeToTheirCommand :
    assemble (buildOf 1) (portsOf 0 [] []) (.init 255 [7]) = .ok (portsOf 0x100000FF [7] []) ∧
    assemble (buildOf 1) (portsOf 0 [] []) .step = .ok (portsOf 0x20000000 [] []) ∧
    assemble (buildOf 1) (portsOf 0 [] []) (.run (2 ^ 28 - 1)) = .ok (portsOf 0x3FFFFFFF [] []) ∧
    assemble (buildOf 1) (portsOf 0 [] []) (.rtget 110 1 0 0) = .ok (portsOf 0x40006E04 [] []) ∧
    assemble (buildOf 1) (portsOf 0 [] []) (.renderAscii [[1]]) = .ok (portsOf 0x50000000 [] [[1]]) ∧
    assemble (buildOf 1) (portsOf 0 [] []) (.renderHalf ['W', 'h', 'i', 't', 'e'] ['B', 'l', 'u', 'e'] [])
      = .ok (portsOf 0x6000003C [] []) ∧
    assemble (buildOf 1) (portsOf 0 [] []) (.renderBraille ['R', 'e', 'd'] ['C', 'y', 'a', 'n'] [[1]])
      = .ok (portsOf 0x7000000E [] [[1]]) := by decide

end Sys2Proof.Tests
end

section
/-! PROOF. What the invariant `BlockInv` needs of each state-changing operation, and that every command and every step
keeps it (00_scope.md R7; 10_state.md R22, R33; 41_stepper.md R129; 60_exceptions.md R201, R206). -/

namespace Sys2Proof.Machine

/-- With STATUS.INIT and the build unchanged, what a response may be is unchanged. -/
theorem ResponseOk.congr {s t : State} {r : Response} (h : ResponseOk s r) (hi : t.status.init = s.status.init)
    (hb : t.build = s.build) : ResponseOk t r := by
  cases r with
  | unit => exact hi.trans h
  | bit b => trivial
  | rows rs => exact ⟨hi.trans h.1, hb ▸ h.2⟩
  | text t => trivial

/-- Construction only widens what a response may be. -/
theorem ResponseOk.construct {s : State} {r : Response} (h : ResponseOk s r) (rule : RuleNum) (S : List Bit) :
    ResponseOk (construct rule S s) r := by
  cases r with
  | unit => rfl
  | bit b => trivial
  | rows rs => exact ⟨rfl, h.2⟩
  | text t => trivial

theorem resetBlock_has_inv {s : State} (h : 0 < s.build.L) : BlockInv (resetBlock s) where
  build := h
  rule := rfl
  cells := rfl
  length := by simp
  quiet := by simp
  noInternal := by simp
  response := by simp

/-- A block right after reset is what `resetBlock` makes of it. -/
theorem resetOf_has_inv {b : Build} (h : 0 < b.L) : BlockInv (State.resetOf b) :=
  resetBlock_has_inv (s := State.resetOf b) h

theorem dequeue_keeps_inv {s : State} (h : BlockInv s) (rest : List HostAction) : BlockInv (dequeue rest s) :=
  { h with response := fun r hr => (h.response r hr).congr rfl rfl }

theorem latchPorts_keeps_inv {s : State} (h : BlockInv s) (p : Ports) : BlockInv (latchPorts p s) :=
  { h with response := fun r hr => (h.response r hr).congr rfl rfl }

theorem ignoreCommand_keeps_inv {s : State} (h : BlockInv s) : BlockInv (ignoreCommand s) :=
  { h with quiet := fun _ => rfl, response := by simp }

theorem raiseFault_keeps_inv {s : State} (h : BlockInv s) {code : FaultCode} (hc : code ≠ .internal) :
    BlockInv (raiseFault code s) :=
  { h with quiet := fun _ => rfl, noInternal := hc, response := by simp }

theorem construct_keeps_inv {s : State} (h : BlockInv s) (rule : RuleNum) {S : List Bit} (hS : S.length = s.build.L) :
    BlockInv (construct rule S s) :=
  { h with
    rule := rfl
    cells := rfl
    length := by simpa using hS
    response := fun r hr => (h.response r hr).construct rule S }

theorem writeCells_keeps_inv {s : State} (h : BlockInv s) (hi : s.status.init = true) {S : List Bit}
    (hS : S.length = s.build.L) : BlockInv (writeCells S s) :=
  { h with
    cells := by simp [hi]
    length := by simpa using hS
    response := fun r hr => (h.response r hr).congr rfl rfl }

theorem respond_keeps_inv {s : State} (h : BlockInv s) (hf : s.status.fault = .none) {r : Response}
    (hr : ResponseOk s r) : BlockInv (respond r s) :=
  { h with
    quiet := fun hne => absurd hf hne
    response := by
      rintro _ ⟨⟩
      exact hr.congr rfl rfl }

/-- A command writes neither the build nor the host's queue. -/
theorem Effect.frame {i : Instr} {s t : State} (h : Effect s t i) : t.build = s.build ∧ t.pending = s.pending := by
  cases i with
  | init rule => obtain ⟨-, rfl⟩ := h; exact ⟨rfl, rfl⟩
  | step => rcases h with ⟨-, rfl⟩ | ⟨T, S, -, rfl⟩ <;> exact ⟨rfl, rfl⟩
  | run n => rcases h with ⟨-, rfl⟩ | ⟨T, S, -, rfl⟩ <;> exact ⟨rfl, rfl⟩
  | rtget rule l c r => cases h; exact ⟨rfl, rfl⟩
  | renderAscii => cases h; exact ⟨rfl, rfl⟩
  | renderHalf fg bg => cases h; exact ⟨rfl, rfl⟩
  | renderBraille fg bg => cases h; exact ⟨rfl, rfl⟩

/-- STEP and RUN: a new generation as long as the old one, and a response that fits it, keep the invariant. -/
theorem respond_writeCells_keeps_inv {s : State} {T : RuleNum} {S S' : List Bit} {r : Response} (h : BlockInv s)
    (hrun : Running s T S) (hlen : S'.length = S.length) (hr : ResponseOk s r) :
    BlockInv (respond r (writeCells S' s)) := by
  obtain ⟨⟨-, hf⟩, hi, -, hS⟩ := hrun
  exact respond_keeps_inv (writeCells_keeps_inv h hi (hlen.trans (h.length S hS))) hf (hr.congr rfl rfl)

/-- The rows of RUN are a response a constructed block may give (41_stepper.md R129). -/
theorem capturedRows_responseOk {s : State} {T : RuleNum} {S : List Bit} (h : BlockInv s) (hrun : Running s T S)
    (n : Nat) : ResponseOk s (.rows (capturedRows T n S)) := by
  obtain ⟨-, hi, -, hS⟩ := hrun
  refine ⟨hi, fun row hrow => ?_⟩
  obtain ⟨hlen, hv⟩ := mem_capturedRows hrow
  exact ⟨hlen.trans (h.length S hS), hv⟩

/-- Every command keeps the invariant on a block that has recorded no fault. -/
theorem Effect.keeps_inv {i : Instr} {s t : State} (hst : Effect s t i) (h : BlockInv s)
    (hf : s.status.fault = .none) : BlockInv t := by
  cases i with
  | init rule =>
    obtain ⟨hseed, rfl⟩ := hst
    have hlen : (seedBits s.ports.seedIn).length = s.build.L := by
      simpa [seedBits] using seedPresentable_length hseed
    exact respond_keeps_inv (construct_keeps_inv h rule hlen) hf rfl
  | step =>
    rcases hst with ⟨-, rfl⟩ | ⟨T, S, hrun, rfl⟩
    · exact raiseFault_keeps_inv h (by decide)
    · have hi : s.status.init = true := hrun.2.1
      exact respond_writeCells_keeps_inv h hrun (nextGen_length T S) hi
  | run n =>
    rcases hst with ⟨-, rfl⟩ | ⟨T, S, hrun, rfl⟩
    · exact raiseFault_keeps_inv h (by decide)
    · exact respond_writeCells_keeps_inv h hrun (advance_length T n S) (capturedRows_responseOk h hrun n)
  | rtget rule l c r => cases hst; exact respond_keeps_inv h hf trivial
  | renderAscii => cases hst; exact respond_keeps_inv h hf trivial
  | renderHalf fg bg => cases hst; exact respond_keeps_inv h hf trivial
  | renderBraille fg bg => cases hst; exact respond_keeps_inv h hf trivial

theorem executeWord_frame {s t : State} (hst : executeWord s = .next t) :
    t.build = s.build ∧ t.pending = s.pending := by
  obtain ⟨-, ⟨-, rfl⟩ | ⟨-, -, rfl⟩ | ⟨i, -, -, he⟩⟩ := executeWord_next hst
  · exact ⟨rfl, rfl⟩
  · exact ⟨rfl, rfl⟩
  · exact he.frame

theorem executeWord_keeps_inv {s t : State} (h : BlockInv s) (hst : executeWord s = .next t) : BlockInv t := by
  obtain ⟨-, ⟨-, rfl⟩ | ⟨-, -, rfl⟩ | ⟨i, hf, -, he⟩⟩ := executeWord_next hst
  · exact ignoreCommand_keeps_inv h
  · exact raiseFault_keeps_inv h (by decide)
  · exact he.keeps_inv h hf

/-- A step with an action waiting takes the oldest one. -/
theorem step_of_pending {s : State} {a : HostAction} {rest : List HostAction} (h : s.pending = a :: rest) :
    step s = takeAction a rest s := by
  simp only [step, h]

theorem step_of_idle {s : State} (h : s.pending = []) : step s = .next s := by
  simp only [step, h]

/-- A step keeps the build and takes exactly the oldest action off the queue. -/
theorem step_frame {s t : State} (hst : step s = .next t) : t.build = s.build ∧ t.pending = s.pending.tail := by
  rcases step_next hst with ⟨hp, rfl⟩ | ⟨rest, hp, -, rfl⟩ | ⟨p, rest, hp, hx⟩
  · simp [hp]
  · simp [hp]
  · simpa [hp] using executeWord_frame hx

theorem step_keeps_inv {s t : State} (h : BlockInv s) (hst : step s = .next t) : BlockInv t := by
  rcases step_next hst with ⟨-, rfl⟩ | ⟨rest, -, hL, rfl⟩ | ⟨p, rest, -, hx⟩
  · exact h
  · exact resetBlock_has_inv hL
  · exact executeWord_keeps_inv (latchPorts_keeps_inv (dequeue_keeps_inv h rest) p) hx

end Sys2Proof.Machine

namespace Sys2Proof.Proofs

open Sys2Proof.Machine

/-- Settles O55: each field of the invariant is read off the reset values of 10_state.md R33. -/
theorem invHoldsAfterReset : Obligations.InvHoldsAfterReset :=
  fun _ hL => resetOf_has_inv hL

/-- Settles O56, by the cases of what a step can do: nothing, a reset, or a command word. -/
theorem everyStepKeepsInv : Obligations.EveryStepKeepsInv :=
  fun _ _ hinv hst => ⟨step_keeps_inv hinv hst, (step_frame hst).1⟩

end Sys2Proof.Proofs
end

section
/-! PROOF. Nothing a host may present stops the block: from a state with the invariant every presentable queue runs to
its end (00_scope.md R6; 20_memory.md R51; 60_exceptions.md R214, R215). -/

namespace Sys2Proof.Machine

/-- With the invariant, INIT = 1 means that both registers hold a value, so the stop `noValue` is not reached. -/
theorem BlockInv.running {s : State} (h : BlockInv s) (hr : Ready s) (hi : s.status.init = true) :
    ∃ T S, Running s T S := by
  obtain ⟨T, hT⟩ := Option.isSome_iff_exists.1 (h.rule.trans hi)
  obtain ⟨S, hS⟩ := Option.isSome_iff_exists.1 (h.cells.trans hi)
  exact ⟨T, S, hr, hi, hT, hS⟩

/-- A block with the invariant either ignores a command because it is faulted, or is ready for it. -/
theorem BlockInv.whenReady_answers {s : State} (h : BlockInv s) {k : Result} (hk : Ready s → ∃ t, k = .next t) :
    ∃ t, whenReady s k = .next t := by
  by_cases hf : s.status.fault = .none
  · have hr : Ready s := ⟨h.build, hf⟩
    simpa only [whenReady_of_ready hr] using hk hr
  · exact ⟨_, whenReady_of_faulted h.build hf k⟩

theorem BlockInv.whenConstructed_answers {s : State} (h : BlockInv s) (hr : Ready s)
    {k : RuleNum → List Bit → Result} (hk : ∀ T S, ∃ t, k T S = .next t) : ∃ t, whenConstructed s k = .next t := by
  cases hi : s.status.init with
  | false => exact ⟨_, whenConstructed_of_not_init hi k⟩
  | true =>
    obtain ⟨T, S, hrun⟩ := h.running hr hi
    simpa only [whenConstructed_of_running hrun] using hk T S

/-- With presentable operands on the ports every command answers a next state. -/
theorem BlockInv.exec_answers {s : State} (h : BlockInv s) (hseed : seedPresentable s.build s.ports.seedIn = true)
    (hmat : matrixPresentable s.build s.ports.matIn = true) (i : Instr) : ∃ t, exec i s = .next t := by
  cases i with
  | init rule => exact h.whenReady_answers fun _ => ⟨_, sampleSeed_of_presentable hseed _⟩
  | step => exact h.whenReady_answers fun hr => h.whenConstructed_answers hr fun _ _ => ⟨_, rfl⟩
  | run n => exact h.whenReady_answers fun hr => h.whenConstructed_answers hr fun _ _ => ⟨_, rfl⟩
  | rtget rule l c r => exact h.whenReady_answers fun _ => ⟨_, rfl⟩
  | renderAscii => exact h.whenReady_answers fun _ => ⟨_, sampleMatrix_of_presentable hmat _⟩
  | renderHalf fg bg => exact h.whenReady_answers fun _ => ⟨_, sampleMatrix_of_presentable hmat _⟩
  | renderBraille fg bg => exact h.whenReady_answers fun _ => ⟨_, sampleMatrix_of_presentable hmat _⟩

/-- Whatever word stands on `cmd`, legal or not, executing it answers a next state. -/
theorem BlockInv.executeWord_answers {s : State} (h : BlockInv s)
    (hseed : seedPresentable s.build s.ports.seedIn = true)
    (hmat : matrixPresentable s.build s.ports.matIn = true) : ∃ t, executeWord s = .next t := by
  refine h.whenReady_answers fun _ => ?_
  cases decode s.ports.cmd with
  | error e => exact ⟨_, rfl⟩
  | ok i => exact h.exec_answers hseed hmat i

theorem BlockInv.step_answers {s : State} (h : BlockInv s) (hp : ∀ a ∈ s.pending, Presentable s.build a) :
    ∃ t, step s = .next t := by
  cases hq : s.pending with
  | nil => exact ⟨s, step_of_idle hq⟩
  | cons a rest =>
    rw [step_of_pending hq]
    cases a with
    | rst => exact ⟨_, if_neg h.build.ne'⟩
    | command p =>
      obtain ⟨hseed, hmat⟩ := hp (.command p) (hq ▸ List.mem_cons_self)
      exact (latchPorts_keeps_inv (dequeue_keeps_inv h rest) p).executeWord_answers hseed hmat

/-- A presentable queue lets any number of steps be taken; each takes one action. -/
theorem BlockInv.runFor_answers {s : State} (h : BlockInv s) (hp : ∀ a ∈ s.pending, Presentable s.build a) (k : Nat) :
    ∃ t, runFor k s = .next t ∧ t.pending = s.pending.drop k ∧ BlockInv t := by
  induction k generalizing s with
  | zero => exact ⟨s, rfl, rfl, h⟩
  | succ k ih =>
    obtain ⟨t, hst⟩ := h.step_answers hp
    obtain ⟨hb, hq⟩ := step_frame hst
    have ht : ∀ a ∈ t.pending, Presentable t.build a := fun a ha =>
      hb ▸ hp a (List.mem_of_mem_tail (hq ▸ ha))
    obtain ⟨u, hrun, hdrop, hu⟩ := ih (step_keeps_inv h hst) ht
    exact ⟨u, by simpa only [runFor, hst] using hrun, by rw [hdrop, hq, List.drop_tail], hu⟩

end Sys2Proof.Machine

namespace Sys2Proof.Proofs

open Sys2Proof.Machine

/-- Settles O57, by the run of any number of steps: its whole length for the end of the queue, and the place of its
last command for the observation. -/
theorem everyPresentableSequenceRunsToItsEnd : Obligations.EveryPresentableSequenceRunsToItsEnd := by
  intro s h hp
  constructor
  · obtain ⟨t, hrun, hq, ht⟩ := h.runFor_answers hp s.pending.length
    exact ⟨t, hrun, hq.trans List.drop_length, ht⟩
  · rintro ⟨p, hmem⟩
    obtain ⟨k, hk⟩ := actionsToEnd_of_command hmem
    obtain ⟨t, hrun, -, -⟩ := h.runFor_answers hp k
    exact ⟨_, observation_of_run hk hrun⟩

end Sys2Proof.Proofs
end

section
/-! PROOF. The ring of 10_state.md R22 on list positions, and the locality of the next generation (00_scope.md R16). -/

namespace Sys2Proof.Machine

theorem cellAt_self {S : List Bit} {i : Nat} (h : i < S.length) : cellAt S (i : Int) = S.getD i .dead := by
  have hmod : ((i : Int) % (S.length : Int)).toNat = i := by
    rw [Int.emod_eq_of_lt (by omega) (by omega)]; omega
  rw [cellAt, hmod]

theorem cellAt_pred {S : List Bit} {i : Nat} (h : i < S.length) :
    cellAt S ((i : Int) - 1) = S.getD (leftOf S.length i) .dead := by
  have hmod : (((i : Int) - 1) % (S.length : Int)).toNat = leftOf S.length i := by
    unfold leftOf
    split
    · rw [← Int.add_emod_right, Int.emod_eq_of_lt (by omega) (by omega)]; omega
    · rw [Int.emod_eq_of_lt (by omega) (by omega)]; omega
  rw [cellAt, hmod]

theorem cellAt_succ {S : List Bit} {i : Nat} (h : i < S.length) :
    cellAt S ((i : Int) + 1) = S.getD (rightOf S.length i) .dead := by
  have hmod : (((i : Int) + 1) % (S.length : Int)).toNat = rightOf S.length i := by
    unfold rightOf
    split
    · rename_i hlast
      have hL : (i : Int) + 1 = S.length := by omega
      rw [hL, Int.emod_self]; rfl
    · rw [Int.emod_eq_of_lt (by omega) (by omega)]; omega
  rw [cellAt, hmod]

/-- A cell of the next generation is the lookup of three cells of the old one (41_stepper.md R122). -/
theorem nextGen_getElem? (T : RuleNum) {S : List Bit} {i : Nat} (h : i < S.length) :
    (nextGen T S)[i]? =
      some (tableGet T (S.getD (leftOf S.length i) .dead) (S.getD i .dead) (S.getD (rightOf S.length i) .dead)) := by
  simp [nextGen, h, cellAt_pred h, cellAt_self h, cellAt_succ h]

end Sys2Proof.Machine

namespace Sys2Proof.Proofs

open Sys2Proof.Machine

/-- Settles O16: both next cells are the same lookup of the three cells the two rows agree on. -/
theorem cellDependsOnlyOnItsNeighbourhood : Obligations.CellDependsOnlyOnItsNeighbourhood := by
  intro T S S' i hlen hi hl hc hr
  rw [nextGen_getElem? T hi, nextGen_getElem? T (hlen ▸ hi), ← hlen]
  simp only [List.getD_eq_getElem?_getD, hl, hc, hr]

end Sys2Proof.Proofs
end

section
/-! PROOF. What the boundary refuses (00_scope.md R7, R10, R11, R17), and which of two defects it names. -/

namespace Sys2Proof.Machine

theorem withinBound_iff (o : Option Nat) (n : Nat) : withinBound o n = true ↔ ∀ b, o = some b → n ≤ b := by
  cases o <;> simp [withinBound]

/-- A matrix is within the bounds of its build: the number of rows, and the length of each row. -/
theorem matrixSizeOk_iff (b : Build) (m : CellMatrix) :
    matrixSizeOk b m = true ↔
      (∀ n, b.maxRows = some n → m.length ≤ n) ∧ ∀ n, b.maxCols = some n → ∀ row ∈ m, row.length ≤ n := by
  simp only [matrixSizeOk, Bool.and_eq_true, List.all_eq_true, withinBound_iff]
  exact and_congr_right fun _ => ⟨fun h n hn row hrow => h row hrow n hn, fun h row hrow n hn => h n hn row hrow⟩

/-- An element outside the range of a finite port does not fit it. -/
theorem cellFits_eq_false {c : CellWidth} {v : Int}
    (h : (∃ w, c = .unsigned w ∧ (v < 0 ∨ 2 ^ w ≤ v)) ∨
      ∃ w, c = .signed w ∧ (2 * v < -(2 ^ w) ∨ 2 ^ w ≤ 2 * v)) : cellFits c v = false := by
  refine Bool.eq_false_iff.2 fun hfits => ?_
  rcases h with ⟨w, rfl, hv⟩ | ⟨w, rfl, hv⟩
  · have : 0 ≤ v ∧ v < 2 ^ w := by simpa [cellFits] using hfits
    omega
  · have : -(2 ^ w) ≤ 2 * v ∧ 2 * v < 2 ^ w := by simpa [cellFits] using hfits
    omega

theorem seedCellsOk_eq_false {b : Build} {seed : List Int} {v : Int} (hv : cellFits b.cellW v = false)
    (h : v ∈ seed) : seedCellsOk b seed = false :=
  List.all_eq_false.2 ⟨v, h, by simp [hv]⟩

theorem matrixCellsOk_eq_false {b : Build} {m : CellMatrix} {v : Int} (hv : cellFits b.cellW v = false)
    (h : ∃ row ∈ m, v ∈ row) : matrixCellsOk b m = false := by
  obtain ⟨row, hrow, hmem⟩ := h
  have : row.all (cellFits b.cellW) = false := List.all_eq_false.2 ⟨v, hmem, by simp [hv]⟩
  exact List.all_eq_false.2 ⟨row, hrow, by simp [this]⟩

theorem sampleSeed_of_wrong_length {s : State} (h : s.ports.seedIn.length ≠ s.build.L) (k : List Int → Result) :
    sampleSeed s k = .refused .seedLength := by
  simp [sampleSeed, seedLengthOk, h]

theorem sampleSeed_of_wide_cell {s : State} (hlen : s.ports.seedIn.length = s.build.L)
    (hcell : seedCellsOk s.build s.ports.seedIn = false) (k : List Int → Result) :
    sampleSeed s k = .refused .cellTooWide := by
  simp [sampleSeed, seedLengthOk, hlen, hcell]

theorem sampleMatrix_of_oversize {s : State} (h : matrixSizeOk s.build s.ports.matIn = false)
    (k : CellMatrix → Result) : sampleMatrix s k = .refused .matrixTooLarge := by
  simp [sampleMatrix, h]

theorem sampleMatrix_of_wide_cell {s : State} (hsize : matrixSizeOk s.build s.ports.matIn = true)
    (hcell : matrixCellsOk s.build s.ports.matIn = false) (k : CellMatrix → Result) :
    sampleMatrix s k = .refused .cellTooWide := by
  simp [sampleMatrix, hsize, hcell]

theorem exec_init_of_ready {s : State} (h : Ready s) (rule : RuleNum) :
    exec (.init rule) s = sampleSeed s fun seed => .next (respond .unit (construct rule (seedBits seed) s)) :=
  whenReady_of_ready h _

/-- On a ready block the three RENDER commands sample the matrix and differ only in the text they answer. -/
theorem exec_render_of_ready {s : State} (h : Ready s) {i : Instr}
    (hi : i = .renderAscii ∨ (∃ fg bg, i = .renderHalf fg bg) ∨ ∃ fg bg, i = .renderBraille fg bg) :
    ∃ textOf : CellMatrix → Text, exec i s = sampleMatrix s fun m => .next (respond (.text (textOf m)) s) := by
  rcases hi with rfl | ⟨fg, bg, rfl⟩ | ⟨fg, bg, rfl⟩
  · exact ⟨asciiText, whenReady_of_ready h _⟩
  · exact ⟨halfText fg bg, whenReady_of_ready h _⟩
  · exact ⟨brailleText fg bg, whenReady_of_ready h _⟩

/-- A build without cells is refused whatever the host does (00_scope.md R7). -/
theorem step_of_zeroLength {s : State} {a : HostAction} {rest : List HostAction} (hL : s.build.L = 0)
    (hq : s.pending = a :: rest) : step s = .refused .zeroLength := by
  rw [step_of_pending hq]
  cases a with
  | rst => exact if_pos hL
  | command p => exact whenReady_of_zeroLength (s := latchPorts p (dequeue rest s)) hL _

end Sys2Proof.Machine

namespace Sys2Proof.Proofs

open Sys2Proof.Machine

/-- Settles O50, clause by clause: the build, the seed's length, the matrix's size, an element. -/
theorem theBoundaryRefuses : Obligations.TheBoundaryRefuses := by
  refine ⟨fun s a rest hL hq => step_of_zeroLength hL hq, fun rule s hr hlen => ?_, fun i s hr hi hsize => ?_,
    fun s v hr hv => ⟨fun rule hlen hmem => ?_, fun i hi hrows hcols hmem => ?_⟩⟩
  · rw [exec_init_of_ready hr, sampleSeed_of_wrong_length hlen]
  · obtain ⟨textOf, hx⟩ := exec_render_of_ready hr hi
    have hover : matrixSizeOk s.build s.ports.matIn = false := by
      refine Bool.eq_false_iff.2 fun hok => ?_
      obtain ⟨hrows, hcols⟩ := (matrixSizeOk_iff _ _).1 hok
      rcases hsize with ⟨b, hb, hlt⟩ | ⟨b, hb, row, hrow, hlt⟩
      · exact absurd (hrows b hb) (by omega)
      · exact absurd (hcols b hb row hrow) (by omega)
    rw [hx, sampleMatrix_of_oversize hover]
  · rw [exec_init_of_ready hr, sampleSeed_of_wide_cell hlen (seedCellsOk_eq_false (cellFits_eq_false hv) hmem)]
  · obtain ⟨textOf, hx⟩ := exec_render_of_ready hr hi
    rw [hx, sampleMatrix_of_wide_cell ((matrixSizeOk_iff _ _).2 ⟨hrows, hcols⟩)
      (matrixCellsOk_eq_false (cellFits_eq_false hv) hmem)]

end Sys2Proof.Proofs
end

section
/-! PROOF. The automaton has no fixed edges (10_state.md R22, 41_stepper.md R122): every integer is a position on the
ring, and both the next generation and a rotation are told by the cells at such positions. -/

namespace Sys2Proof.Machine

theorem cellAt_emod (S : List Bit) (j : Int) : cellAt S (j % (S.length : Int)) = cellAt S j := by
  simp only [cellAt, Int.emod_emod]

/-- Every position of the ring is that of a cell. -/
theorem exists_cell_of_position {L : Nat} (hL : 0 < L) (j : Int) : ∃ i : Nat, i < L ∧ j % (L : Int) = i := by
  obtain ⟨i, hi⟩ := Int.eq_ofNat_of_zero_le (Int.emod_nonneg j (by omega : (L : Int) ≠ 0))
  have := Int.emod_lt_of_pos j (by omega : (0 : Int) < L)
  exact ⟨i, by omega, hi⟩

/-- A generation is told by the cells at the positions of its ring. -/
theorem ext_cellAt {S S' : List Bit} (hlen : S.length = S'.length) (h : ∀ j, cellAt S j = cellAt S' j) : S = S' := by
  refine List.ext_getElem hlen fun i hi hi' => ?_
  simpa [cellAt_self hi, cellAt_self hi', hi, hi'] using h i

/-- Rotating a row by `k` shifts the positions of its ring by `k`. -/
theorem cellAt_rotate {S : List Bit} (hS : 0 < S.length) (k : Nat) (j : Int) :
    cellAt (S.rotate k) j = cellAt S (j + k) := by
  obtain ⟨i, hi, hj⟩ := exists_cell_of_position hS j
  have hshift : (j + k) % (S.length : Int) = ((i + k) % S.length : Nat) := by
    rw [← Int.emod_add_emod, hj]; rfl
  have hget : (S.rotate k)[i]? = S[(i + k) % S.length]? := List.getElem?_rotate hi
  simp only [cellAt, List.length_rotate, hj, hshift, Int.toNat_natCast, List.getD_eq_getElem?_getD, hget]

/-- The rule of 41_stepper.md R122 at any position of the ring, written without an edge. -/
theorem cellAt_nextGen (T : RuleNum) {S : List Bit} (hS : 0 < S.length) (j : Int) :
    cellAt (nextGen T S) j = tableGet T (cellAt S (j - 1)) (cellAt S j) (cellAt S (j + 1)) := by
  obtain ⟨i, hi, hj⟩ := exists_cell_of_position hS j
  have hpred : cellAt S ((i : Int) - 1) = cellAt S (j - 1) := by
    rw [← hj, ← cellAt_emod, Int.emod_sub_emod, cellAt_emod]
  have hself : cellAt S (i : Int) = cellAt S j := by rw [← hj, cellAt_emod]
  have hsucc : cellAt S ((i : Int) + 1) = cellAt S (j + 1) := by
    rw [← hj, ← cellAt_emod, Int.emod_add_emod, cellAt_emod]
  rw [← hpred, ← hself, ← hsucc, ← cellAt_emod, nextGen_length, hj, cellAt_self (by simpa using hi)]
  simp [nextGen, hi]

end Sys2Proof.Machine

namespace Sys2Proof.Proofs

open Sys2Proof.Machine

/-- Settles O15: at position `j` of the ring both sides are the lookup of the old cells `j + k - 1`, `j + k` and
`j + k + 1`. -/
theorem rotatingTheRowRotatesTheNextGeneration : Obligations.RotatingTheRowRotatesTheNextGeneration := by
  intro T S k
  rcases S.length.eq_zero_or_pos with hS | hS
  · obtain rfl := List.length_eq_zero_iff.1 hS
    simp [nextGen]
  have hrot : 0 < (S.rotate k).length := by simpa using hS
  have hnext : 0 < (nextGen T S).length := by simpa using hS
  refine ext_cellAt (by simp) fun j => ?_
  calc cellAt (nextGen T (S.rotate k)) j
      = tableGet T (cellAt S (j - 1 + k)) (cellAt S (j + k)) (cellAt S (j + 1 + k)) := by
        simp only [cellAt_nextGen T hrot, cellAt_rotate hS]
    _ = tableGet T (cellAt S (j + k - 1)) (cellAt S (j + k)) (cellAt S (j + k + 1)) := by
        rw [sub_add_eq_add_sub, add_right_comm]
    _ = cellAt ((nextGen T S).rotate k) j := by
        rw [cellAt_rotate hnext, cellAt_nextGen T hS]

end Sys2Proof.Proofs
end

section
/-! PROOF. What a command does to STATUS and which kind of response it gives (10_state.md R23, R31). -/

namespace Sys2Proof.Machine

/-- The kind of response a command gives when it completes (10_state.md R31). -/
def AnswersInKind (i : Instr) (rsp : Option Response) : Prop :=
  match i with
  | .init _ => rsp = some .unit
  | .step => rsp = some .unit
  | .run _ => ∃ rs, rsp = some (.rows rs)
  | .rtget _ _ _ _ => ∃ b, rsp = some (.bit b)
  | .renderAscii => ∃ x, rsp = some (.text x)
  | .renderHalf _ _ => ∃ x, rsp = some (.text x)
  | .renderBraille _ _ => ∃ x, rsp = some (.text x)

/-- A command on a ready block records UNINIT, or completes: FAULT is as it was, INIT is not cleared, and the response
is of the command's kind. -/
theorem Effect.raises_or_completes {i : Instr} {s t : State} (h : Effect s t i) :
    t = raiseFault .uninit s ∨
      (t.status.fault = s.status.fault ∧ (s.status.init = true → t.status.init = true) ∧ AnswersInKind i t.rsp) := by
  cases i with
  | init rule => obtain ⟨-, rfl⟩ := h; exact .inr ⟨rfl, fun _ => rfl, rfl⟩
  | step => exact h.imp And.right fun ⟨T, S, _, ht⟩ => by cases ht; exact ⟨rfl, id, rfl⟩
  | run n => exact h.imp And.right fun ⟨T, S, _, ht⟩ => by cases ht; exact ⟨rfl, id, _, rfl⟩
  | rtget rule l c r => cases h; exact .inr ⟨rfl, id, _, rfl⟩
  | renderAscii => cases h; exact .inr ⟨rfl, id, _, rfl⟩
  | renderHalf fg bg => cases h; exact .inr ⟨rfl, id, _, rfl⟩
  | renderBraille fg bg => cases h; exact .inr ⟨rfl, id, _, rfl⟩

/-- A command that faults on a block without a fault gives no response. -/
theorem Effect.rsp_eq_none_of_fault {i : Instr} {s t : State} (h : Effect s t i) (hs : s.status.fault = .none)
    (ht : t.status.fault ≠ .none) : t.rsp = none := by
  rcases h.raises_or_completes with rfl | ⟨hf, -, -⟩
  · rfl
  · exact absurd (hf.trans hs) ht

theorem exec_rsp_eq_none_of_fault {i : Instr} {s t : State} (h : exec i s = .next t)
    (ht : t.status.fault ≠ .none) : t.rsp = none := by
  rcases exec_next h with ⟨-, -, rfl⟩ | ⟨⟨-, hs⟩, he⟩
  · rfl
  · exact he.rsp_eq_none_of_fault hs ht

/-- A command that leaves no fault behind was not ignored and did not record UNINIT, so it completed. -/
theorem exec_answersInKind {i : Instr} {s t : State} (h : exec i s = .next t) (ht : t.status.fault = .none) :
    AnswersInKind i t.rsp := by
  rcases exec_next h with ⟨-, hs, rfl⟩ | ⟨-, he⟩
  · exact absurd ht hs
  · rcases he.raises_or_completes with rfl | ⟨-, -, hkind⟩
    · cases ht
    · exact hkind

theorem executeWord_rsp_eq_none_of_fault {s t : State} (h : executeWord s = .next t) (ht : t.status.fault ≠ .none) :
    t.rsp = none := by
  obtain ⟨-, ⟨-, rfl⟩ | ⟨-, -, rfl⟩ | ⟨i, hs, -, he⟩⟩ := executeWord_next h
  · rfl
  · rfl
  · exact he.rsp_eq_none_of_fault hs ht

theorem exec_keeps_init {i : Instr} {s t : State} (h : exec i s = .next t) (hi : s.status.init = true) :
    t.status.init = true := by
  rcases exec_next h with ⟨-, -, rfl⟩ | ⟨-, he⟩
  · exact hi
  · rcases he.raises_or_completes with rfl | ⟨-, hkeep, -⟩
    · exact hi
    · exact hkeep hi

theorem exec_keeps_fault {i : Instr} {s t : State} (h : exec i s = .next t) (hf : s.status.fault ≠ .none) :
    t.status.fault = s.status.fault := by
  rcases exec_next h with ⟨-, -, rfl⟩ | ⟨⟨-, hs⟩, -⟩
  · rfl
  · exact absurd hs hf

end Sys2Proof.Machine

namespace Sys2Proof.Proofs

open Sys2Proof.Machine

/-- Settles O36, from the two things a command on a ready block can do: record UNINIT, or complete. -/
theorem eachCommandGivesItsKindOfResponse : Obligations.EachCommandGivesItsKindOfResponse :=
  ⟨fun _ _ _ h => ⟨exec_rsp_eq_none_of_fault h, exec_answersInKind h⟩, fun _ _ => executeWord_rsp_eq_none_of_fault⟩

/-- Settles O39: a faulted block ignores the command, and no command on a ready one clears INIT. -/
theorem noCommandClearsStatus : Obligations.NoCommandClearsStatus :=
  fun _ _ _ h => ⟨exec_keeps_init h, exec_keeps_fault h⟩

end Sys2Proof.Proofs
end

section
/-! PROOF. Which commands write RULE and STATE (10_state.md R21, R22; 20_memory.md R50). -/

namespace Sys2Proof.Machine

/-- Of the commands only INIT writes RULE. -/
theorem Effect.rule_eq {i : Instr} {s t : State} (h : Effect s t i) :
    t.rule = s.rule ∨ ∃ rule, i = .init rule ∧ t.rule = some rule := by
  cases i with
  | init rule => obtain ⟨-, rfl⟩ := h; exact .inr ⟨rule, rfl, rfl⟩
  | step => rcases h with ⟨-, rfl⟩ | ⟨T, S, -, rfl⟩ <;> exact .inl rfl
  | run n => rcases h with ⟨-, rfl⟩ | ⟨T, S, -, rfl⟩ <;> exact .inl rfl
  | rtget rule l c r => cases h; exact .inl rfl
  | renderAscii => cases h; exact .inl rfl
  | renderHalf fg bg => cases h; exact .inl rfl
  | renderBraille fg bg => cases h; exact .inl rfl

/-- Of the commands only INIT, STEP and RUN write STATE. -/
theorem Effect.cells_eq {i : Instr} {s t : State} (h : Effect s t i) :
    t.cells = s.cells ∨ (∃ rule, i = .init rule) ∨ i = .step ∨ ∃ n, i = .run n := by
  cases i with
  | init rule => exact .inr (.inl ⟨rule, rfl⟩)
  | step => exact .inr (.inr (.inl rfl))
  | run n => exact .inr (.inr (.inr ⟨n, rfl⟩))
  | rtget rule l c r => cases h; exact .inl rfl
  | renderAscii => cases h; exact .inl rfl
  | renderHalf fg bg => cases h; exact .inl rfl
  | renderBraille fg bg => cases h; exact .inl rfl

/-- What a step does to RULE and STATE: nothing, a reset, or what the command of a legal word does to them. -/
theorem step_registers {s t : State} (h : step s = .next t) :
    (t.rule = s.rule ∧ t.cells = s.cells) ∨
    (∃ rest, s.pending = .rst :: rest ∧ t.rule = none ∧ t.cells = none) ∨
    ∃ p rest i, s.pending = .command p :: rest ∧ decode p.cmd = .ok i ∧
      Effect (latchPorts p (dequeue rest s)) t i := by
  rcases step_next h with ⟨-, rfl⟩ | ⟨rest, hp, -, rfl⟩ | ⟨p, rest, hp, hx⟩
  · exact .inl ⟨rfl, rfl⟩
  · exact .inr (.inl ⟨rest, hp, rfl, rfl⟩)
  · obtain ⟨-, ⟨-, rfl⟩ | ⟨-, -, rfl⟩ | ⟨i, -, hi, he⟩⟩ := executeWord_next hx
    · exact .inl ⟨rfl, rfl⟩
    · exact .inl ⟨rfl, rfl⟩
    · exact .inr (.inr ⟨p, rest, i, hp, hi, he⟩)

end Sys2Proof.Machine

namespace Sys2Proof.Proofs

open Sys2Proof.Machine

/-- Settles O40: a reset takes RULE's value away, and of the legal words only INIT's command writes it. -/
theorem onlyInitAndResetWriteRule : Obligations.OnlyInitAndResetWriteRule := by
  intro s t h hne
  rcases step_registers h with ⟨hrule, -⟩ | ⟨rest, hp, hrule, -⟩ | ⟨p, rest, i, hp, hi, he⟩
  · exact absurd hrule hne
  · exact .inl ⟨rest, hp, hrule⟩
  · rcases he.rule_eq with hrule | ⟨rule, rfl, hrule⟩
    · exact absurd hrule hne
    · exact .inr ⟨p, rest, rule, hp, hi, hrule⟩

/-- Settles O41: a reset takes STATE's value away, and of the legal words only those of INIT, STEP and RUN write it. -/
theorem onlyInitStepRunAndResetWriteState : Obligations.OnlyInitStepRunAndResetWriteState := by
  intro s t h hne
  rcases step_registers h with ⟨-, hcells⟩ | ⟨rest, hp, -, hcells⟩ | ⟨p, rest, i, hp, hi, he⟩
  · exact absurd hcells hne
  · exact .inl ⟨rest, hp, hcells⟩
  · exact .inr ⟨p, rest, i, hp, hi, he.cells_eq.resolve_left hne⟩

end Sys2Proof.Proofs
end

section
/-! PROOF. The output ports and the values after reset (10_state.md R23, R24, R29, R30, R33). -/

namespace Sys2Proof.Machine

theorem stateOut_of_init {s : State} {S : List Bit} (hi : s.status.init = true) (hS : s.cells = some S) :
    stateOut s = some (rowOf S) := by
  simp [stateOut, constructed, hi, hS]

theorem stateOut_of_not_init {s : State} (hi : s.status.init = false) : stateOut s = none := by
  simp [stateOut, constructed, hi]

@[simp] theorem rowOf_getElem? (S : List Bit) (i : Nat) : (rowOf S)[i]? = S[i]?.map toInt :=
  List.getElem?_map

/-- Bit 0 of STATUS is INIT (10_state.md R23). -/
theorem statusBits_bit_zero (st : Status) : (statusBits st).getLsbD 0 = st.init := by
  rw [statusBits, BitVec.getLsbD_append]; simp

/-- Bits 2:1 of STATUS are the code of FAULT (10_state.md R23). -/
theorem statusBits_bits_two_one (st : Status) : (statusBits st).extractLsb' 1 2 = faultBits st.fault :=
  BitVec.extractLsb'_append_eq_left

/-- STEP and RUN need INIT = 1 (10_state.md R33; 60_exceptions.md R205). -/
theorem exec_step_or_run_of_not_init {i : Instr} {s : State} (hr : Ready s) (hi : s.status.init = false)
    (h : i = .step ∨ ∃ n, i = .run n) : exec i s = .next (raiseFault .uninit s) := by
  rcases h with rfl | ⟨n, rfl⟩
  · exact (whenReady_of_ready hr _).trans (whenConstructed_of_not_init hi _)
  · exact (whenReady_of_ready hr _).trans (whenConstructed_of_not_init hi _)

end Sys2Proof.Machine

namespace Sys2Proof.Proofs

open Sys2Proof.Machine

/-- Settles O37: with INIT = 1 the port is the row of the generation STATE holds. -/
theorem stateOutShowsState : Obligations.StateOutShowsState :=
  fun _ => ⟨fun hi S hS => ⟨rowOf S, stateOut_of_init hi hS, rowOf_length S, rowOf_getElem? S⟩, stateOut_of_not_init⟩

/-- Settles O38: the two fields of STATUS, with the code of each fault. -/
theorem statusOutLayout : Obligations.StatusOutLayout := by
  refine fun s => ⟨statusBits_bit_zero s.status, (statusBits_bits_two_one s.status).trans ?_⟩
  cases s.status.fault <;> rfl

/-- Settles O51: the values are those `State.resetOf` writes out, and STEP and RUN are the commands that read RULE or
STATE. -/
theorem valuesAfterReset : Obligations.ValuesAfterReset :=
  ⟨fun _ => ⟨rfl, rfl, rfl, rfl, rfl, stateOut_of_not_init rfl⟩,
    fun _ _ hr hi h => ⟨_, exec_step_or_run_of_not_init hr hi h, rfl⟩⟩

end Sys2Proof.Proofs
end

section
/-! PROOF. The bytes of a text on a byte port (20_memory.md R46; 42_glyph_packer.md R160, R165, R171). -/

namespace Sys2Proof.Machine

/-- UTF-8 gives a character below U+0080 one byte, its code point. -/
theorem utf8Char_of_one_byte {c : Char} (h : c.toNat < 0x80) : utf8Char c = [BitVec.ofNat 8 c.toNat] := by
  simp only [utf8Char, if_pos h]

/-- UTF-8 gives a character from U+0800 to U+FFFF three bytes, carrying 4, 6 and 6 bits of its code point. -/
theorem utf8Char_of_three_bytes {c : Char} (hlo : 0x800 ≤ c.toNat) (hhi : c.toNat < 0x10000) :
    utf8Char c = [BitVec.ofNat 8 (0xE0 + c.toNat / 0x1000), BitVec.ofNat 8 (0x80 + c.toNat / 0x40 % 0x40),
      BitVec.ofNat 8 (0x80 + c.toNat % 0x40)] := by
  have h80 : ¬ c.toNat < 0x80 := by omega
  simp only [utf8Char, if_neg h80, if_neg hlo.not_gt, if_pos hhi]

@[simp] theorem textBytes_singleton (c : Char) : textBytes [c] = utf8Char c := List.flatMap_singleton ..

/-- A text of characters below U+0080 takes one byte a character. -/
theorem textBytes_of_one_byte {t : Text} (h : ∀ c ∈ t, c.toNat < 0x80) :
    textBytes t = t.map fun c => BitVec.ofNat 8 c.toNat := by
  calc textBytes t
      = t.flatMap fun c => [BitVec.ofNat 8 c.toNat] := List.flatMap_congr fun c hc => utf8Char_of_one_byte (h c hc)
    _ = t.map fun c => BitVec.ofNat 8 c.toNat := List.flatMap_pure_eq_map ..

/-- The alphabet of RENDER_ASCII (42_glyph_packer.md R160). -/
theorem mem_asciiText {m : CellMatrix} {c : Char} (h : c ∈ asciiText m) : c = '#' ∨ c = '.' ∨ c = lfChar := by
  obtain ⟨row, -, hc⟩ := List.mem_flatMap.1 h
  rcases List.mem_append.1 hc with hc | hc
  · obtain ⟨v, -, rfl⟩ := List.mem_map.1 hc
    cases hv : lit v <;> simp [asciiChar, hv]
  · exact .inr (.inr (List.mem_singleton.1 hc))

theorem toNat_lt_of_mem_asciiText {m : CellMatrix} {c : Char} (h : c ∈ asciiText m) : c.toNat < 0x80 := by
  rcases mem_asciiText h with rfl | rfl | rfl <;> decide

theorem dotValue_le (B : Fin 4 → Fin 2 → Int) (dr : Fin 4) (dc : Fin 2) : dotValue B dr dc ≤ dotWeight dr dc := by
  unfold dotValue
  split
  · exact le_rfl
  · exact Nat.zero_le _

/-- The dot weights together are 255 (42_glyph_packer.md R170). -/
theorem dotSum_lt (B : Fin 4 → Fin 2 → Int) : dotSum B < 0x100 :=
  calc dotSum B
      ≤ dotWeight 0 0 + dotWeight 0 1 + dotWeight 1 0 + dotWeight 1 1
        + dotWeight 2 0 + dotWeight 2 1 + dotWeight 3 0 + dotWeight 3 1 := by
        unfold dotSum; gcongr <;> exact dotValue_le B _ _
    _ < 0x100 := by decide

/-- A glyph's code point (42_glyph_packer.md R171): the sum of the weights keeps it in the braille block, so it is a
Unicode scalar value. -/
theorem brailleGlyph_toNat (B : Fin 4 → Fin 2 → Int) : (brailleGlyph B).toNat = 0x2800 + dotSum B := by
  have hvalid : (0x2800 + dotSum B).isValidChar := .inl (by have := dotSum_lt B; omega)
  rw [brailleGlyph, Char.toNat_ofNat, if_pos hvalid]

/-- Of a glyph's code point the first byte is constant, and the second and third split the sum of the weights. -/
theorem utf8Char_brailleGlyph (B : Fin 4 → Fin 2 → Int) : utf8Char (brailleGlyph B) =
    [0xE2#8, BitVec.ofNat 8 (0xA0 + dotSum B / 64), BitVec.ofNat 8 (0x80 + dotSum B % 64)] := by
  have hsum := dotSum_lt B
  have hcode := brailleGlyph_toNat B
  have first : 0xE0 + (brailleGlyph B).toNat / 0x1000 = 0xE2 := by omega
  have second : 0x80 + (brailleGlyph B).toNat / 0x40 % 0x40 = 0xA0 + dotSum B / 64 := by omega
  have third : 0x80 + (brailleGlyph B).toNat % 0x40 = 0x80 + dotSum B % 64 := by omega
  rw [utf8Char_of_three_bytes (by omega) (by omega), first, second, third]

end Sys2Proof.Machine

namespace Sys2Proof.Proofs

open Sys2Proof.Machine

/-- Settles O35: RENDER_ASCII's alphabet lies below U+0080, and both kinds of glyph lie between U+0800 and U+FFFF. -/
theorem glyphsAsUtf8Bytes : Obligations.GlyphsAsUtf8Bytes := by
  refine ⟨fun m => textBytes_of_one_byte fun _ => toNat_lt_of_mem_asciiText, ?_, fun B => ?_⟩
  · rw [textBytes_singleton, utf8Char_of_three_bytes (by decide) (by decide)]; rfl
  · rw [textBytes_singleton, utf8Char_brailleGlyph]

end Sys2Proof.Proofs
end

section
/-! PROOF. The decoder over the opcode map (30_encoding.md R67, R68): a matching row shows in OP, so at most one row
matches, and that row decides. -/

namespace Sys2Proof

/-- Every mask covers bits 31:28. -/
theorem opcodeTable_mask_covers_op : ∀ r ∈ opcodeTable, r.mask.extractLsb' 28 4 = 0b1111#4 := by
  decide

/-- The rows differ in OP. -/
theorem opcodeTable_op_nodup : (opcodeTable.map fun r => opField r.pattern).Nodup := by
  decide

theorem rowMatches_iff (w : Word) (r : OpcodeRow) : rowMatches w r = true ↔ w &&& r.mask = r.pattern := by
  simp [rowMatches]

/-- A word that matches a row has the row's OP. -/
theorem opField_of_rowMatches {w : Word} {r : OpcodeRow} (hr : r ∈ opcodeTable) (hm : rowMatches w r = true) :
    opField w = opField r.pattern := by
  have hones : r.mask.extractLsb' 28 4 = BitVec.allOnes 4 := opcodeTable_mask_covers_op r hr
  rw [← (rowMatches_iff w r).1 hm, opField, opField, BitVec.extractLsb'_and, hones, BitVec.and_allOnes]

/-- No two rows match one word, because they differ in OP. -/
theorem opcodeTable_pairwise_not_both (w : Word) :
    opcodeTable.Pairwise fun r r' => ¬ (rowMatches w r = true ∧ rowMatches w r' = true) := by
  refine (List.pairwise_map.1 opcodeTable_op_nodup).imp_of_mem fun hr hr' hne hboth => hne ?_
  obtain ⟨hm, hm'⟩ := hboth
  exact (opField_of_rowMatches hr hm).symm.trans (opField_of_rowMatches hr' hm')

/-- Of rows that never match together, the one that matches decides. -/
theorem decodeWith_of_rowMatches {w : Word} {rows : List OpcodeRow} {r : OpcodeRow}
    (hpw : rows.Pairwise fun r r' => ¬ (rowMatches w r = true ∧ rowMatches w r' = true))
    (hr : r ∈ rows) (hm : rowMatches w r = true) : decodeWith w rows = .ok (r.fields w) := by
  induction rows with
  | nil => cases hr
  | cons r' rows ih =>
    obtain ⟨hhead, htail⟩ := List.pairwise_cons.1 hpw
    rcases List.mem_cons.1 hr with rfl | hr
    · rw [decodeWith, if_pos hm]
    · have hm' : ¬ rowMatches w r' = true := fun h => hhead r hr ⟨h, hm⟩
      rw [decodeWith, if_neg hm', ih htail hr]

/-- With no matching row the search ends in the word's reason to be illegal. -/
theorem decodeWith_of_no_match {w : Word} {rows : List OpcodeRow} (h : ∀ r ∈ rows, rowMatches w r = false) :
    decodeWith w rows = .error (illegalReason w) := by
  induction rows with
  | nil => rfl
  | cons r rows ih =>
    obtain ⟨hhead, htail⟩ := List.forall_mem_cons.1 h
    rw [decodeWith, hhead, if_neg Bool.false_ne_true, ih htail]

theorem decode_of_rowMatches {w : Word} {r : OpcodeRow} (hr : r ∈ opcodeTable) (hm : rowMatches w r = true) :
    decode w = .ok (r.fields w) :=
  decodeWith_of_rowMatches (opcodeTable_pairwise_not_both w) hr hm

theorem decode_of_no_match {w : Word} (h : ∀ r ∈ opcodeTable, rowMatches w r = false) :
    decode w = .error (illegalReason w) :=
  decodeWith_of_no_match h

/-- A word is illegal exactly when it matches no row. -/
theorem decode_error_iff (w : Word) : (∃ e, decode w = .error e) ↔ ∀ r ∈ opcodeTable, rowMatches w r = false := by
  refine ⟨fun ⟨e, he⟩ r hr => ?_, fun h => ⟨_, decode_of_no_match h⟩⟩
  by_contra hm
  rw [decode_of_rowMatches hr (Bool.eq_true_of_not_eq_false hm)] at he
  cases he

/-- A legal word was decoded by a row it matches. -/
theorem exists_row_of_decode {w : Word} {i : Instr} (h : decode w = .ok i) :
    ∃ r ∈ opcodeTable, rowMatches w r = true ∧ r.fields w = i := by
  by_contra hno
  have hnone : ∀ r ∈ opcodeTable, rowMatches w r = false := fun r hr => by
    by_contra hm
    have hm := Bool.eq_true_of_not_eq_false hm
    exact hno ⟨r, hr, hm, Except.ok.inj ((decode_of_rowMatches hr hm).symm.trans h)⟩
  rw [decode_of_no_match hnone] at h
  cases h

end Sys2Proof

namespace Sys2Proof.Proofs

/-- Settles O3: the matching row shows in OP, in which the rows differ. -/
theorem opcodeRowsNeverOverlap : Obligations.OpcodeRowsNeverOverlap :=
  ⟨opcodeTable_mask_covers_op, opcodeTable_op_nodup, fun w =>
    ⟨opcodeTable_pairwise_not_both w, fun _ => decode_of_rowMatches, (decode_error_iff w).2⟩⟩

end Sys2Proof.Proofs
end

section
/-! PROOF. The formats of 30_encoding.md R61 read both ways: what each field of a format's word holds, and that a word
with its reserved fields zero is the format's word of its own fields. -/

namespace Sys2Proof

@[simp] theorem initRuleField_formatI (op : BitVec 4) (rule : RuleNum) : initRuleField (formatI op rule) = rule :=
  BitVec.extractLsb'_append_eq_right

/-- The one operand that can be too wide for its field. -/
theorem countField_formatC (op : BitVec 4) {n : Nat} (hn : n < 2 ^ 28) : countField (formatC op n) = n := by
  rw [countField, formatC, BitVec.extractLsb'_append_eq_right, BitVec.toNat_ofNat, Nat.mod_eq_of_lt hn]

@[simp] theorem getRuleField_formatG (op : BitVec 4) (rule : RuleNum) (l c r : Bit) :
    getRuleField (formatG op rule l c r) = rule :=
  (BitVec.extractLsb'_append_eq_of_le (by decide)).trans <| (BitVec.extractLsb'_append_eq_of_le (by decide)).trans <|
    (BitVec.extractLsb'_append_eq_of_le (by decide)).trans <| (BitVec.extractLsb'_append_eq_of_le (by decide)).trans
      BitVec.extractLsb'_append_eq_right

/-- A neighbour field as a field of one bit. -/
theorem neighbourField_eq {w : Word} {i : Nat} {b : Bit} (h : w.extractLsb' i 1 = BitVec.ofBool (boolOfBit b)) :
    neighbourField w i = b := by
  have hbit : w.getLsbD i = boolOfBit b := by simpa using congrArg (·.getLsbD 0) h
  rw [neighbourField, hbit, bitOfBool_boolOfBit]

@[simp] theorem neighbourField_zero_formatG (op : BitVec 4) (rule : RuleNum) (l c r : Bit) :
    neighbourField (formatG op rule l c r) 0 = r :=
  neighbourField_eq BitVec.extractLsb'_append_eq_right

@[simp] theorem neighbourField_one_formatG (op : BitVec 4) (rule : RuleNum) (l c r : Bit) :
    neighbourField (formatG op rule l c r) 1 = c :=
  neighbourField_eq <| (BitVec.extractLsb'_append_eq_of_le (by decide)).trans BitVec.extractLsb'_append_eq_right

@[simp] theorem neighbourField_two_formatG (op : BitVec 4) (rule : RuleNum) (l c r : Bit) :
    neighbourField (formatG op rule l c r) 2 = l :=
  neighbourField_eq <| (BitVec.extractLsb'_append_eq_of_le (by decide)).trans <|
    (BitVec.extractLsb'_append_eq_of_le (by decide)).trans BitVec.extractLsb'_append_eq_right

@[simp] theorem fgField_formatK (op : BitVec 4) (fg bg : Color) : fgField (formatK op fg bg) = fg := by
  have hfg : (formatK op fg bg).extractLsb' 3 3 = colorIndex fg :=
    (BitVec.extractLsb'_append_eq_of_le (by decide)).trans BitVec.extractLsb'_append_eq_right
  rw [fgField, hfg, colorOfIndex_colorIndex]

@[simp] theorem bgField_formatK (op : BitVec 4) (fg bg : Color) : bgField (formatK op fg bg) = bg := by
  have hbg : (formatK op fg bg).extractLsb' 0 3 = colorIndex bg := BitVec.extractLsb'_append_eq_right
  rw [bgField, hbg, colorOfIndex_colorIndex]

/-- The row with a command's mnemonic reads the command's operands back from its word. -/
theorem fields_encode {i : Instr} (hwf : i.wf = true) :
    ∀ r ∈ opcodeTable, r.mnemonic = mnemonicOf i → r.fields (encode i) = i := by
  cases i with
  | init rule => simp [opcodeTable, mnemonicOf, encode]
  | step => simp [opcodeTable, mnemonicOf]
  | run n =>
    have hn : n < 2 ^ 28 := of_decide_eq_true hwf
    simp [opcodeTable, mnemonicOf, encode, countField_formatC _ hn]
  | rtget rule l c r => simp [opcodeTable, mnemonicOf, encode]
  | renderAscii => simp [opcodeTable, mnemonicOf]
  | renderHalf fg bg => simp [opcodeTable, mnemonicOf, encode]
  | renderBraille fg bg => simp [opcodeTable, mnemonicOf, encode]

/-- Every command's word matches the row with its mnemonic. -/
theorem encode_matches_its_row (i : Instr) : Laws.EncodesItsRow.Statement i := by
  cases i with
  | init rule => exact Laws.EncodesItsRow.init rule
  | step => exact Laws.EncodesItsRow.step
  | run n => exact Laws.EncodesItsRow.run n
  | rtget rule l c r => exact Laws.EncodesItsRow.rtget rule l c r
  | renderAscii => exact Laws.EncodesItsRow.renderAscii
  | renderHalf fg bg => exact Laws.EncodesItsRow.renderHalf fg bg
  | renderBraille fg bg => exact Laws.EncodesItsRow.renderBraille fg bg

theorem decode_encode {i : Instr} (hwf : i.wf = true) : decode (encode i) = .ok i := by
  obtain ⟨r, hr, hname, hmatch⟩ := encode_matches_its_row i
  rw [decode_of_rowMatches hr ((rowMatches_iff _ r).2 hmatch), fields_encode hwf r hr hname]

/-- Format N, both ways. -/
theorem eq_formatN_iff (w : Word) (op : BitVec 4) : w = formatN op ↔ opField w = op ∧ w.extractLsb' 0 28 = 0 := by
  constructor
  · rintro rfl
    exact ⟨BitVec.extractLsb'_append_eq_left, BitVec.extractLsb'_append_eq_right⟩
  · rintro ⟨rfl, hzero⟩
    exact (BitVec.extractLsb'_append_extractLsb' (w := 4) (len := 28)).symm.trans
      (congrArg (opField w ++ ·) hzero)

theorem formatI_of_fields {w : Word} (hzero : w.extractLsb' 8 20 = 0) :
    formatI (opField w) (initRuleField w) = w := by
  have hzero : (0#20) = w.extractLsb' 8 20 := hzero.symm
  simp only [formatI, initRuleField, opField, hzero, BitVec.extractLsb'_append_extractLsb'_eq_extractLsb']
  exact BitVec.extractLsb'_eq_self

theorem formatC_of_fields (w : Word) : formatC (opField w) (countField w) = w := by
  rw [formatC, countField, opField, BitVec.ofNat_toNat, BitVec.setWidth_eq]
  exact BitVec.extractLsb'_append_extractLsb' (w := 4) (len := 28)

/-- The bit of a neighbour field, as a field of one bit. -/
theorem ofBool_boolOfBit_neighbourField (w : Word) (i : Nat) :
    BitVec.ofBool (boolOfBit (neighbourField w i)) = w.extractLsb' i 1 := by
  ext j hj
  obtain rfl : j = 0 := by omega
  simp [neighbourField]

theorem formatG_of_fields {w : Word} (hhigh : w.extractLsb' 16 12 = 0) (hlow : w.extractLsb' 3 5 = 0) :
    formatG (opField w) (getRuleField w) (neighbourField w 2) (neighbourField w 1) (neighbourField w 0) = w := by
  have hhigh : (0#12) = w.extractLsb' 16 12 := hhigh.symm
  have hlow : (0#5) = w.extractLsb' 3 5 := hlow.symm
  simp only [formatG, getRuleField, opField, hhigh, hlow, ofBool_boolOfBit_neighbourField,
    BitVec.extractLsb'_append_extractLsb'_eq_extractLsb']
  exact BitVec.extractLsb'_eq_self

theorem formatK_of_fields {w : Word} (hzero : w.extractLsb' 6 22 = 0) :
    formatK (opField w) (fgField w) (bgField w) = w := by
  have hzero : (0#22) = w.extractLsb' 6 22 := hzero.symm
  simp only [formatK, fgField, bgField, opField, colorIndex_colorOfIndex, hzero,
    BitVec.extractLsb'_append_extractLsb'_eq_extractLsb']
  exact BitVec.extractLsb'_eq_self

theorem countField_lt (w : Word) : countField w < 2 ^ 28 :=
  (w.extractLsb' 0 28).isLt

/-- What a row reads from a word that matches it is well formed, and the word is its encoding. -/
theorem encode_fields (w : Word) :
    ∀ r ∈ opcodeTable, rowMatches w r = true → (r.fields w).wf = true ∧ encode (r.fields w) = w := by
  simp only [opcodeTable, List.forall_mem_cons, rowMatches_iff]
  refine ⟨fun h => ⟨rfl, ?_⟩, fun h => ⟨rfl, ?_⟩, fun h => ⟨decide_eq_true (countField_lt w), ?_⟩, fun h => ⟨rfl, ?_⟩,
    fun h => ⟨rfl, ?_⟩, fun h => ⟨rfl, ?_⟩, fun h => ⟨rfl, ?_⟩, by simp⟩
  · obtain ⟨hop, hzero⟩ := (formatI_match w).1 h
    exact (congrArg (formatI · _) hop.symm).trans (formatI_of_fields hzero)
  · exact ((formatN_match w _).1 h).symm
  · exact (congrArg (formatC · _) ((formatC_match w).1 h).symm).trans (formatC_of_fields w)
  · obtain ⟨hop, hhigh, hlow⟩ := (formatG_match w).1 h
    exact (congrArg (formatG · _ _ _ _) hop.symm).trans (formatG_of_fields hhigh hlow)
  · exact ((formatN_match w _).1 h).symm
  · obtain ⟨hop, hzero⟩ := (formatK_match_half w).1 h
    exact (congrArg (formatK · _ _) hop.symm).trans (formatK_of_fields hzero)
  · obtain ⟨hop, hzero⟩ := (formatK_match_braille w).1 h
    exact (congrArg (formatK · _ _) hop.symm).trans (formatK_of_fields hzero)

end Sys2Proof

namespace Sys2Proof.Proofs

/-- Settles O1: a command's word matches the row with its mnemonic, and that row reads every operand back. -/
theorem decodeOfEncodeGivesTheCommandBack : Obligations.DecodeOfEncodeGivesTheCommandBack :=
  fun _ => decode_encode

/-- Settles O2: the row that decoded the word fixes every bit outside the fields it reads. -/
theorem encodeOfDecodeGivesTheWordBack : Obligations.EncodeOfDecodeGivesTheWordBack := by
  intro w i h
  obtain ⟨r, hr, hm, rfl⟩ := exists_row_of_decode h
  exact encode_fields w r hr hm

end Sys2Proof.Proofs
end

section
/-! PROOF. The illegal words in terms of the fields of R61 (30_encoding.md R70), and what executing a word does once it
is decoded (R69). -/

namespace Sys2Proof

/-- OP is reserved or one of the seven of the opcode map. -/
theorem op_reserved_or_assigned (op : BitVec 4) :
    (op = 0 ∨ 8 ≤ op.toNat) ∨ op = 1 ∨ op = 2 ∨ op = 3 ∨ op = 4 ∨ op = 5 ∨ op = 6 ∨ op = 7 := by
  revert op; decide

theorem op_not_assigned_of_reserved {op : BitVec 4} (h : op = 0 ∨ 8 ≤ op.toNat) :
    op ≠ 1 ∧ op ≠ 2 ∧ op ≠ 3 ∧ op ≠ 4 ∧ op ≠ 5 ∧ op ≠ 6 ∧ op ≠ 7 := by
  revert op; decide

/-- A word matches no row, row by row, in the fields of its formats. -/
theorem no_match_iff (w : Word) : (∀ r ∈ opcodeTable, rowMatches w r = false) ↔
    ¬ (opField w = 1 ∧ w.extractLsb' 8 20 = 0) ∧ ¬ (opField w = 2 ∧ w.extractLsb' 0 28 = 0) ∧ ¬ opField w = 3 ∧
      ¬ (opField w = 4 ∧ w.extractLsb' 16 12 = 0 ∧ w.extractLsb' 3 5 = 0) ∧
      ¬ (opField w = 5 ∧ w.extractLsb' 0 28 = 0) ∧ ¬ (opField w = 6 ∧ w.extractLsb' 6 22 = 0) ∧
      ¬ (opField w = 7 ∧ w.extractLsb' 6 22 = 0) := by
  have hstep : w = 0x20000000#32 ↔ opField w = 2 ∧ w.extractLsb' 0 28 = 0 := eq_formatN_iff w 2
  have hascii : w = 0x50000000#32 ↔ opField w = 5 ∧ w.extractLsb' 0 28 = 0 := eq_formatN_iff w 5
  simp only [opcodeTable, List.forall_mem_cons, ← Bool.not_eq_true, rowMatches_iff, formatI_match, formatN_match,
    formatC_match, formatG_match, formatK_match_half, formatK_match_braille, hstep, hascii]
  simp

end Sys2Proof

namespace Sys2Proof.Machine

theorem executeWord_of_decode_error {s : State} {e : Illegal} (hr : Ready s) (h : decode s.ports.cmd = .error e) :
    executeWord s = .next (raiseFault .illegalCmd s) := by
  rw [executeWord, whenReady_of_ready hr, h]

/-- On a legal word the check of the sticky fault is the decoded command's own. -/
theorem executeWord_of_decode_ok {s : State} {i : Instr} (h : decode s.ports.cmd = .ok i) :
    executeWord s = exec i s := by
  rw [executeWord, h]
  exact whenReady_exec i s

end Sys2Proof.Machine

namespace Sys2Proof.Proofs

open Sys2Proof.Machine

/-- Settles O4: row by row, a word that matches no row has a reserved OP or a reserved field that is not zero. -/
theorem illegalWordsAreExactlyTheReservedOnes : Obligations.IllegalWordsAreExactlyTheReservedOnes := by
  refine ⟨fun w => ?_, fun s e hr he => executeWord_of_decode_error hr he⟩
  rw [decode_error_iff, no_match_iff]
  rcases op_reserved_or_assigned (opField w) with hres | h | h | h | h | h | h | h
  · simp only [hres, op_not_assigned_of_reserved hres, false_and, not_false_eq_true, and_self, true_or]
  all_goals simp [h, imp_iff_not_or]

/-- Settles O53: the word on the ports is the oldest action's, and decoding it picks the command that runs. -/
theorem stepRunsTheDecodedCommand : Obligations.StepRunsTheDecodedCommand := by
  intro s p rest hp
  have hstep : step s = executeWord { s with ports := p, pending := rest } := step_of_pending hp
  exact ⟨hstep, fun i hi => hstep.trans (executeWord_of_decode_ok hi)⟩

/-- Settles O5: a legal word is its command's encoding; of the two illegal ones neither matches a row. -/
theorem workedWordsDecode : Obligations.WorkedWordsDecode :=
  ⟨decode_encode (i := .init 90) rfl, decode_encode (i := .step) rfl, decode_encode (i := .run 268435455) rfl,
    decode_encode (i := .rtget 110 .alive .dead .alive) rfl, decode_encode (i := .renderAscii) rfl,
    decode_encode (i := .renderHalf .white .black) rfl, decode_encode (i := .renderBraille .red .cyan) rfl,
    decode_of_no_match (by decide), decode_of_no_match (by decide)⟩

end Sys2Proof.Proofs
end

section
/-! PROOF. The assembler (30_encoding.md R72): what an assembled line encodes, and exactly which operands are refused. -/

namespace Sys2Proof.Machine

open Sys2Proof.Laws

/-- A bind is refused with its first part, or else under the condition of its second. -/
theorem bind_refused_iff {α β ε : Type} {x : Except ε α} {f : α → Except ε β} {P : Prop}
    (hf : ∀ a, (∃ e, f a = .error e) ↔ P) : (∃ e, (x >>= f) = .error e) ↔ (∃ e, x = .error e) ∨ P := by
  cases x with
  | error e => exact ⟨fun _ => .inl ⟨e, rfl⟩, fun _ => ⟨e, rfl⟩⟩
  | ok a => exact (hf a).trans (by simp)

theorem pure_not_refused {α ε : Type} (a : α) : (∃ e, (pure a : Except ε α) = .error e) ↔ False :=
  iff_false_intro fun ⟨_, he⟩ => by cases he

theorem asmRule_refused_iff (n : Nat) : (∃ e, asmRule n = .error e) ↔ 255 < n := by
  unfold asmRule
  split <;> simp <;> omega

theorem asmBit_refused_iff (n : Nat) : (∃ e, asmBit n = .error e) ↔ 1 < n := by
  unfold asmBit
  split
  · simp; omega
  · split <;> simp <;> omega

theorem mem_allColors (c : Color) : c ∈ allColors := by
  cases c <;> decide

theorem asmColor_refused_iff (name : Text) : (∃ e, asmColor name = .error e) ↔ ∀ c, colorName c ≠ name := by
  have hfind : allColors.find? (fun c => colorName c == name) = none ↔ ∀ c, colorName c ≠ name := by
    simp [mem_allColors]
  rw [← hfind, asmColor]
  split <;> simp [*]

/-- The two colours of a coloured RENDER line, one after the other. -/
theorem asmColors_refused_iff (mk : Color → Color → Instr) (fg bg : Text) :
    (∃ e, (do let front ← asmColor fg; let back ← asmColor bg; return mk front back) = .error e) ↔
      (∀ c, colorName c ≠ fg) ∨ ∀ c, colorName c ≠ bg := by
  rw [bind_refused_iff fun _ => bind_refused_iff fun _ => pure_not_refused _]
  simp only [asmColor_refused_iff, or_false]

theorem asmInstr_init_refused_iff (rule : Nat) (seed : List Int) :
    (∃ e, asmInstr (.init rule seed) = .error e) ↔ 255 < rule := by
  rw [← asmRule_refused_iff, asmInstr]
  cases asmRule rule <;> simp [Except.map]

theorem asmInstr_run_refused_iff (n : Nat) : (∃ e, asmInstr (.run n) = .error e) ↔ 2 ^ 28 - 1 < n := by
  rw [asmInstr]
  split <;> simp <;> omega

theorem asmInstr_rtget_refused_iff (rule l c r : Nat) :
    (∃ e, asmInstr (.rtget rule l c r) = .error e) ↔ 255 < rule ∨ 1 < l ∨ 1 < c ∨ 1 < r := by
  rw [asmInstr, bind_refused_iff fun _ => bind_refused_iff fun _ => bind_refused_iff fun _ => bind_refused_iff fun _ =>
    pure_not_refused _]
  simp only [asmRule_refused_iff, asmBit_refused_iff, or_false]

/-- A line is refused for its command's operands or for its seed. -/
theorem assemble_refused_iff (b : Build) (p : Ports) (line : AsmLine) :
    (∃ e, assemble b p line = .error e) ↔ (∃ e, asmInstr line = .error e) ∨ asmSeedOk b line = false := by
  unfold assemble
  split
  · simp [*]
  · split <;> simp [*]

theorem asmInstr_init_ok {rule : Nat} {seed : List Int} {i : Instr} (h : asmInstr (.init rule seed) = .ok i) :
    rule ≤ 255 ∧ i = .init (BitVec.ofNat 8 rule) := by
  cases hr : asmRule rule with
  | error e => simp [asmInstr, hr, Except.map] at h
  | ok a =>
    obtain ⟨hle, rfl⟩ := asmRule_ok hr
    exact ⟨hle, by simpa [asmInstr, hr, Except.map] using h.symm⟩

theorem asmInstr_run_ok {n : Nat} {i : Instr} (h : asmInstr (.run n) = .ok i) : n ≤ 2 ^ 28 - 1 ∧ i = .run n := by
  rw [asmInstr] at h
  split at h
  · exact ⟨‹_›, (Except.ok.inj h).symm⟩
  · cases h

theorem bitNat_of_asmBit {n : Nat} {b : Bit} (h : asmBit n = .ok b) : bitNat b = n := by
  rcases asmBit_ok h with ⟨rfl, rfl⟩ | ⟨rfl, rfl⟩ <;> rfl

theorem asmInstr_rtget_ok {rule l c r : Nat} {i : Instr} (h : asmInstr (.rtget rule l c r) = .ok i) :
    rule ≤ 255 ∧ ∃ left centre right : Bit, bitNat left = l ∧ bitNat centre = c ∧ bitNat right = r ∧
      i = .rtget (BitVec.ofNat 8 rule) left centre right := by
  obtain ⟨a, hrule, h⟩ := except_bind_ok h
  obtain ⟨left, hl, h⟩ := except_bind_ok h
  obtain ⟨centre, hc, h⟩ := except_bind_ok h
  obtain ⟨right, hr, h⟩ := except_bind_ok h
  obtain ⟨hle, rfl⟩ := asmRule_ok hrule
  exact ⟨hle, left, centre, right, bitNat_of_asmBit hl, bitNat_of_asmBit hc, bitNat_of_asmBit hr,
    (Except.ok.inj h).symm⟩

/-- The command of a coloured RENDER line has the two colours the line names. -/
theorem asmColors_ok {mk : Color → Color → Instr} {fg bg : Text} {i : Instr}
    (h : (do let front ← asmColor fg; let back ← asmColor bg; return mk front back) = Except.ok i) :
    ∃ front back : Color, colorName front = fg ∧ colorName back = bg ∧ i = mk front back := by
  obtain ⟨front, hf, h⟩ := except_bind_ok h
  obtain ⟨back, hb, h⟩ := except_bind_ok h
  exact ⟨front, back, asmColor_ok hf, asmColor_ok hb, (Except.ok.inj h).symm⟩

/-- The assembler only makes commands that a word can carry. -/
theorem asmInstr_wf {line : AsmLine} {i : Instr} (h : asmInstr line = .ok i) : i.wf = true := by
  cases line with
  | init rule seed => obtain ⟨-, rfl⟩ := asmInstr_init_ok h; rfl
  | step => cases h; rfl
  | run n => obtain ⟨hn, rfl⟩ := asmInstr_run_ok h; exact decide_eq_true (by omega)
  | rtget rule l c r => obtain ⟨-, _, _, _, -, -, -, rfl⟩ := asmInstr_rtget_ok h; rfl
  | renderAscii m => cases h; rfl
  | renderHalf fg bg m => obtain ⟨_, _, -, -, rfl⟩ := asmColors_ok h; rfl
  | renderBraille fg bg m => obtain ⟨_, _, -, -, rfl⟩ := asmColors_ok h; rfl

end Sys2Proof.Machine

namespace Sys2Proof.Proofs

open Sys2Proof.Laws Sys2Proof.Machine

/-- Settles O58: the word of an assembled line decodes to the line's command, which is well formed, and each form of line
names that command's operands. -/
theorem assembledLinesDecodeToTheirCommand : Obligations.AssembledLinesDecodeToTheirCommand := by
  refine ⟨by decide, fun b p q line h => ?_⟩
  obtain ⟨i, hi, hseed, rfl⟩ := assemble_ok h
  have hdec : decode (encode i) = .ok i := decode_encode (asmInstr_wf hi)
  cases line with
  | init rule seed =>
    obtain ⟨hle, rfl⟩ := asmInstr_init_ok hi
    exact ⟨hle, hdec, rfl, of_decide_eq_true hseed, rfl⟩
  | step => cases hi; exact ⟨hdec, rfl, rfl⟩
  | run n => obtain ⟨-, rfl⟩ := asmInstr_run_ok hi; exact ⟨hdec, rfl, rfl⟩
  | rtget rule l c r =>
    obtain ⟨hle, left, centre, right, hl, hc, hr, rfl⟩ := asmInstr_rtget_ok hi
    exact ⟨hle, ⟨left, centre, right, hl, hc, hr, hdec⟩, rfl, rfl⟩
  | renderAscii m => cases hi; exact ⟨hdec, rfl, rfl⟩
  | renderHalf fg bg m =>
    obtain ⟨front, back, hf, hb, rfl⟩ := asmColors_ok hi
    exact ⟨⟨front, back, hf, hb, hdec⟩, rfl, rfl⟩
  | renderBraille fg bg m =>
    obtain ⟨front, back, hf, hb, rfl⟩ := asmColors_ok hi
    exact ⟨⟨front, back, hf, hb, hdec⟩, rfl, rfl⟩

/-- Settles O59: a line is refused for its command's operands, each under its own condition, or for its seed. -/
theorem assemblerRefusesExactly : Obligations.AssemblerRefusesExactly := by
  intro b p line
  rw [assemble_refused_iff]
  cases line with
  | init rule seed => simp [asmInstr_init_refused_iff, asmSeedOk, seedLengthOk]
  | step => simp [asmInstr, asmSeedOk]
  | run n => simp [asmInstr_run_refused_iff, asmSeedOk]
  | rtget rule l c r => simp [asmInstr_rtget_refused_iff, asmSeedOk]
  | renderAscii m => simp [asmInstr, asmSeedOk]
  | renderHalf fg bg m =>
    exact (or_iff_left (by simp [asmSeedOk])).trans (asmColors_refused_iff .renderHalf fg bg)
  | renderBraille fg bg m =>
    exact (or_iff_left (by simp [asmSeedOk])).trans (asmColors_refused_iff .renderBraille fg bg)

end Sys2Proof.Proofs
end

section
/-! PROOF. The rule-table ROM (40_rule_table.md R100 to R104): an entry is a bit of the rule number, the lookup reads
the entry of the pattern, and what RTGET answers. Also the frame of the commands that write no register (R102;
42_glyph_packer.md R154). -/

namespace Sys2Proof.Machine

theorem bitOfBool_eq_ite (b : Bool) : bitOfBool b = if b = true then .alive else .dead := rfl

theorem bitOfBool_eq_alive_iff (b : Bool) : bitOfBool b = .alive ↔ b = true := by
  cases b <;> decide

/-- The entry of a pattern is that bit of the rule as a number (40_rule_table.md R100). -/
theorem tableEntry_eq (rule : RuleNum) (p : Nat) : tableEntry rule p = bitOfBool (rule.toNat.testBit p) := rfl

@[simp] theorem tableOf_length (rule : RuleNum) : (tableOf rule).length = 8 := by
  simp [tableOf]

theorem tableOf_getElem? (rule : RuleNum) {p : Nat} (h : p < 8) : (tableOf rule)[p]? = some (tableEntry rule p) := by
  simp [tableOf, h]

theorem bitNat_le_one (b : Bit) : bitNat b ≤ 1 :=
  Bool.toNat_le _

/-- The lookup is total: every triple of Bits names one of the 8 entries (40_rule_table.md R101). -/
theorem patternIndex_lt (l c r : Bit) : patternIndex l c r < 8 := by
  have hl := bitNat_le_one l
  have hc := bitNat_le_one c
  have hr := bitNat_le_one r
  unfold patternIndex
  omega

theorem tableGet_eq (rule : RuleNum) (l c r : Bit) :
    tableGet rule l c r = bitOfBool (rule.toNat.testBit (patternIndex l c r)) := rfl

/-- The iterative procedure reads off bits 0, 1, ... of its number, as bit `p + 1` of `n` is bit `p` of `n div 2`
(40_rule_table.md R100). -/
theorem tableByHalving_eq_map_testBit (k n : Nat) :
    tableByHalving k n = (List.range k).map fun p => bitOfBool (n.testBit p) := by
  induction k generalizing n with
  | zero => rfl
  | succ k ih =>
    have hhead : (if n % 2 = 1 then Bit.alive else .dead) = bitOfBool (n.testBit 0) := by
      simp [bitOfBool_eq_ite, Nat.testBit_zero]
    have htail : tableByHalving k (n / 2) = (List.range k).map fun p => bitOfBool (n.testBit (p + 1)) := by
      simp only [ih, Nat.testBit_succ]
    rw [tableByHalving, hhead, htail, List.range_succ_eq_map, List.map_cons, List.map_map]
    rfl

theorem tableByHalving_eq_tableOf (rule : RuleNum) : tableByHalving 8 rule.toNat = tableOf rule :=
  tableByHalving_eq_map_testBit 8 rule.toNat

/-- The table of rule 90, pattern by pattern (40_rule_table.md R104). -/
theorem tableGet_ninety (l c r : Bit) : tableGet 90 l c r = bitOfBool (boolOfBit l ^^ boolOfBit r) := by
  cases l <;> cases c <;> cases r <;> rfl

/-- The table of rule 150, pattern by pattern (40_rule_table.md R104). -/
theorem tableGet_one_fifty (l c r : Bit) :
    tableGet 150 l c r = bitOfBool (boolOfBit l ^^ boolOfBit c ^^ boolOfBit r) := by
  cases l <;> cases c <;> cases r <;> rfl

theorem exec_rtget_of_ready {s : State} (h : Ready s) (rule : RuleNum) (l c r : Bit) :
    exec (.rtget rule l c r) s = .next (respond (.bit (tableGet rule l c r)) s) :=
  whenReady_of_ready h _

/-- RTGET and the RENDER commands do nothing but respond (40_rule_table.md R102; 42_glyph_packer.md R154). -/
theorem Effect.only_responds {i : Instr} {s t : State} (h : Effect s t i)
    (hi : (∃ rule l c r, i = .rtget rule l c r) ∨ i = .renderAscii ∨ (∃ fg bg, i = .renderHalf fg bg) ∨
      ∃ fg bg, i = .renderBraille fg bg) : ∃ r, t = respond r s := by
  rcases hi with ⟨rule, l, c, r, rfl⟩ | rfl | ⟨fg, bg, rfl⟩ | ⟨fg, bg, rfl⟩ <;> exact ⟨_, h⟩

end Sys2Proof.Machine

namespace Sys2Proof.Proofs

open Sys2Proof.Machine

/-- Settles O7: both procedures list the bits of the number from bit 0 on, the iterative one by induction on the number
of entries. -/
theorem halvingGivesTheSameTable : Obligations.HalvingGivesTheSameTable := by
  refine ⟨fun rule => ⟨tableOf_length rule, fun p hp => ?_, tableByHalving_eq_tableOf rule⟩, fun k n => ?_⟩
  · rw [tableOf_getElem? rule hp, tableEntry_eq, bitOfBool_eq_ite]
  · simp only [tableByHalving_eq_map_testBit, bitOfBool_eq_ite]

/-- Settles O19: a next cell is the lookup of its neighbourhood, and the two tables are those XORs. -/
theorem rulesNinetyAndOneFiftyAreXor : Obligations.RulesNinetyAndOneFiftyAreXor := by
  intro S i hi
  simp only [nextGen_getElem? _ hi, tableGet_ninety, tableGet_one_fifty, and_self]

/-- Settles O42: a faulted block ignores the command, and on a ready one it only responds. -/
theorem rtgetAndRenderFrame : Obligations.RtgetAndRenderFrame := by
  intro i s t hi h
  rcases exec_next h with ⟨-, -, rfl⟩ | ⟨-, he⟩
  · rfl
  · obtain ⟨r, rfl⟩ := he.only_responds hi
    rfl

/-- Settles O6: the lookup is the entry of the pattern, and the entry is that bit of the rule. -/
theorem lookupReadsThePatternBitOfTheRule : Obligations.LookupReadsThePatternBitOfTheRule := by
  intro r b2 b1 b0
  rw [tableGet_eq, bitOfBool_eq_alive_iff, patternIndex]

/-- Settles O8: the pattern index is below 8, so it is the place of an entry. -/
theorem lookupNeverMisses : Obligations.LookupNeverMisses :=
  fun rule l c r => tableOf_getElem? rule (patternIndex_lt l c r)

/-- Settles O9: RTGET on a ready block only responds, with the bit the lookup reads. -/
theorem rtgetAnswersOneTableEntry : Obligations.RtgetAnswersOneTableEntry := by
  intro rule l c r s h
  rw [exec_rtget_of_ready h, tableGet_eq, bitOfBool_eq_ite]
  rfl

end Sys2Proof.Proofs
end

section
/-! PROOF. The next generation under the corner rules and on short rows (41_stepper.md R123, R124), and what `n` steps
leave and the rows they pass through (R126, R127). -/

namespace Sys2Proof.Machine

/-- A rule whose table has one entry throughout makes every cell that entry. -/
theorem nextGen_of_constant_table {T : RuleNum} {b : Bit} (h : ∀ l c r, tableGet T l c r = b) (S : List Bit) :
    nextGen T S = List.replicate S.length b := by
  simp [nextGen, h]

/-- A rule whose table answers the centre cell changes no row. -/
theorem nextGen_of_centre_table {T : RuleNum} (h : ∀ l c r, tableGet T l c r = c) (S : List Bit) :
    nextGen T S = S := by
  refine List.ext_getElem (nextGen_length T S) fun i _ hi => ?_
  have hcell := nextGen_getElem? T hi
  simpa [h, hi] using hcell

theorem tableGet_zero (l c r : Bit) : tableGet 0 l c r = .dead := by
  cases l <;> cases c <;> cases r <;> rfl

theorem tableGet_two_fifty_five (l c r : Bit) : tableGet 255 l c r = .alive := by
  cases l <;> cases c <;> cases r <;> rfl

theorem tableGet_two_hundred_four (l c r : Bit) : tableGet 204 l c r = c := by
  cases l <;> cases c <;> cases r <;> rfl

/-- The one cell of a row is both its own neighbours (41_stepper.md R124). -/
theorem nextGen_singleton (T : RuleNum) (a : Bit) : nextGen T [a] = [tableGet T a a a] := by
  simp [nextGen, cellAt]

/-- On a row of two both neighbours are the other cell (41_stepper.md R124). -/
theorem nextGen_pair (T : RuleNum) (a b : Bit) : nextGen T [a, b] = [tableGet T b a b, tableGet T a b a] := by
  simp [nextGen, cellAt, List.range_succ]

/-- Positions that lie less than a whole row apart are different cells of the ring. -/
theorem emod_ne_of_apart {L x y : Int} (hlt : x < y) (hL : y - x < L) : x % L ≠ y % L := by
  intro h
  have hdvd : L ∣ y - x := Int.ModEq.dvd h
  have hle : L ≤ y - x := Int.le_of_dvd (by omega) hdvd
  omega

theorem advance_eq_iterate (T : RuleNum) (n : Nat) (S : List Bit) : advance T n S = (nextGen T)^[n] S := by
  induction n generalizing S with
  | zero => rfl
  | succ n ih => exact ih (nextGen T S)

theorem advance_add (T : RuleNum) (a b : Nat) (S : List Bit) :
    advance T (a + b) S = advance T b (advance T a S) := by
  simp only [advance_eq_iterate, Nat.add_comm a b, Function.iterate_add_apply]

/-- Row `k` is the generation `k` steps on, captured before the next step (41_stepper.md R126). -/
theorem capturedRows_eq_map_iterate (T : RuleNum) (n : Nat) (S : List Bit) :
    capturedRows T n S = (List.range n).map fun k => rowOf ((nextGen T)^[k] S) := by
  induction n generalizing S with
  | zero => rfl
  | succ n ih =>
    rw [capturedRows_succ, ih, List.range_succ_eq_map, List.map_cons, List.map_map]
    rfl

theorem capturedRows_add (T : RuleNum) (a b : Nat) (S : List Bit) :
    capturedRows T (a + b) S = capturedRows T a S ++ capturedRows T b (advance T a S) := by
  induction a generalizing S with
  | zero => simp
  | succ a ih => simp [Nat.succ_add, ih]

theorem capturedRows_head? (T : RuleNum) {n : Nat} (hn : 1 ≤ n) (S : List Bit) :
    (capturedRows T n S).head? = some (rowOf S) := by
  obtain ⟨m, rfl⟩ := Nat.exists_eq_add_of_le' hn
  rfl

/-- The row that shows a converted seed has 1 for each element above 0 (41_stepper.md R120). -/
theorem rowOf_seedBits (seed : List Int) : rowOf (seedBits seed) = seed.map fun v => if 0 < v then 1 else 0 := by
  rw [rowOf, seedBits, List.map_map]
  refine List.map_congr_left fun v _ => ?_
  by_cases hv : 0 < v <;> simp [toBit, toInt, hv]

end Sys2Proof.Machine

namespace Sys2Proof.Proofs

open Sys2Proof.Machine

/-- Settles O13: the ring positions beside cell `i` are those of `leftOf` and `rightOf`. -/
theorem nextGenerationReadsTheOldNeighbours : Obligations.NextGenerationReadsTheOldNeighbours :=
  fun T S => ⟨nextGen_length T S, fun _ hi => nextGen_getElem? T hi⟩

/-- Settles O18, from the tables of the three rules. -/
theorem cornerRulesOfStep : Obligations.CornerRulesOfStep :=
  fun S => ⟨nextGen_of_constant_table tableGet_zero S, nextGen_of_constant_table tableGet_two_fifty_five S,
    nextGen_of_centre_table tableGet_two_hundred_four S⟩

/-- Settles O10, by the test of R120. -/
theorem seedElementIsAliveIffPositive : Obligations.SeedElementIsAliveIffPositive :=
  fun _ => ⟨fun hpos => if_pos hpos, fun hneg => if_neg (Int.not_lt.2 hneg)⟩

/-- Settles O14: the short rows are computed; from `L = 3` on the three positions lie less than a row apart. -/
theorem shortRowsWrapLiterally : Obligations.ShortRowsWrapLiterally := by
  refine ⟨nextGen_singleton, nextGen_pair, fun L i hL hi => ?_⟩
  have hself : (i : Int) % (L : Int) = i := Int.emod_eq_of_lt (by omega) (by omega)
  refine ⟨?_, ?_, emod_ne_of_apart (by omega) (by omega)⟩
  · rw [← hself, Int.emod_sub_emod]
    exact emod_ne_of_apart (by omega) (by omega)
  · rw [← hself, Int.emod_add_emod]
    exact (emod_ne_of_apart (by omega) (by omega)).symm

end Sys2Proof.Proofs
end

section
/-! PROOF. What INIT, STEP and RUN answer on a block that meets their precondition (41_stepper.md R121, R123, R126),
their frames, and runs that begin with an INIT (R128). -/

namespace Sys2Proof.Machine

theorem exec_init_of_presentable {s : State} (h : Ready s) (hseed : seedPresentable s.build s.ports.seedIn = true)
    (rule : RuleNum) :
    exec (.init rule) s = .next (respond .unit (construct rule (seedBits s.ports.seedIn) s)) := by
  rw [exec_init_of_ready h, sampleSeed_of_presentable hseed]

theorem exec_step_of_running {s : State} {T : RuleNum} {S : List Bit} (h : Running s T S) :
    exec .step s = .next (respond .unit (writeCells (nextGen T S) s)) :=
  (whenReady_of_ready h.1 _).trans (whenConstructed_of_running h _)

theorem exec_run_of_running {s : State} {T : RuleNum} {S : List Bit} (h : Running s T S) (n : Nat) :
    exec (.run n) s = .next (respond (.rows (capturedRows T n S)) (writeCells (advance T n S) s)) :=
  (whenReady_of_ready h.1 _).trans (whenConstructed_of_running h _)

/-- INIT on a ready block makes it a running one. -/
theorem Ready.running_respond_construct {s : State} (h : Ready s) (rule : RuleNum) (S : List Bit) (r : Response) :
    Running (respond r (construct rule S s)) rule S :=
  ⟨h, rfl, rfl, rfl⟩

/-- After STEP or RUN the block runs on, from the generation they left. -/
theorem Running.respond_writeCells {s : State} {T : RuleNum} {S : List Bit} (h : Running s T S) (S' : List Bit)
    (r : Response) : Running (respond r (writeCells S' s)) T S' := by
  obtain ⟨hready, hinit, hrule, -⟩ := h
  exact ⟨hready, hinit, hrule, rfl⟩

theorem execTimes_step_of_running {s : State} {T : RuleNum} {S : List Bit} (h : Running s T S) (n : Nat) :
    ∃ t, execTimes .step n s = .next t ∧ t.cells = some (advance T n S) := by
  induction n generalizing s S with
  | zero =>
    obtain ⟨-, -, -, hcells⟩ := h
    exact ⟨s, rfl, hcells⟩
  | succ n ih =>
    obtain ⟨t, ht, hcells⟩ := ih (h.respond_writeCells (nextGen T S) .unit)
    exact ⟨t, by simpa only [execTimes, exec_step_of_running h] using ht, hcells⟩

/-- What STEP and RUN do on a ready block: record UNINIT, or replace the generation by one as long and respond. -/
theorem Effect.uninit_or_writeCells {i : Instr} {s t : State} (h : Effect s t i) (hi : i = .step ∨ ∃ n, i = .run n) :
    t = raiseFault .uninit s ∨
      ∃ S S' r, s.cells = some S ∧ S'.length = S.length ∧ t = respond r (writeCells S' s) := by
  rcases hi with rfl | ⟨n, rfl⟩
  · refine h.imp And.right ?_
    rintro ⟨T, S, ⟨-, -, -, hcells⟩, rfl⟩
    exact ⟨S, _, _, hcells, nextGen_length T S, rfl⟩
  · refine h.imp And.right ?_
    rintro ⟨T, S, ⟨-, -, -, hcells⟩, rfl⟩
    exact ⟨S, _, _, hcells, advance_length T n S, rfl⟩

/-- The boundary looks at the build and the ports only. -/
theorem sampleSeed_congr {s t : State} (hbuild : s.build = t.build) (hports : s.ports = t.ports)
    {k k' : List Int → Result} (hk : ∀ seed, k seed = k' seed) : sampleSeed s k = sampleSeed t k' := by
  simp only [sampleSeed, hbuild, hports, hk]

/-- A construction writes every register but FAULT, so its answer tells nothing of what the block held. -/
theorem respond_construct_congr {s t : State} (hbuild : s.build = t.build) (hfault : s.status.fault = t.status.fault)
    (hports : s.ports = t.ports) (hpending : s.pending = t.pending) (r : Response) (rule : RuleNum) (S : List Bit) :
    respond r (construct rule S s) = respond r (construct rule S t) := by
  simp only [respond, construct, hbuild, hfault, hports, hpending]

/-- On ready blocks of one build INIT answers the same, a refusal included, whatever the registers held. -/
theorem exec_init_congr {s t : State} (hs : Ready s) (ht : Ready t) (hbuild : s.build = t.build)
    (hports : s.ports = t.ports) (hpending : s.pending = t.pending) (rule : RuleNum) :
    exec (.init rule) s = exec (.init rule) t := by
  have hfault : s.status.fault = t.status.fault := hs.2.trans ht.2.symm
  rw [exec_init_of_ready hs, exec_init_of_ready ht]
  refine sampleSeed_congr hbuild hports fun seed => ?_
  rw [respond_construct_congr hbuild hfault hports hpending]

theorem step_of_legal_word {s : State} {p : Ports} {rest : List HostAction} {i : Instr}
    (hp : s.pending = .command p :: rest) (hi : decode p.cmd = .ok i) :
    step s = exec i (latchPorts p (dequeue rest s)) :=
  (step_of_pending hp).trans (executeWord_of_decode_ok hi)

/-- Runs that begin with the same step are the same. -/
theorem runFor_succ_congr {s t : State} (h : step s = step t) (k : Nat) : runFor (k + 1) s = runFor (k + 1) t := by
  simp only [runFor, h]

end Sys2Proof.Machine

namespace Sys2Proof.Proofs

open Sys2Proof.Machine

/-- Settles O12: taking the action puts the same ports and queue in both blocks, and INIT writes the rest, so already
the first step answers the same. -/
theorem initErasesWhatTheBlockHeld : Obligations.InitErasesWhatTheBlockHeld := by
  intro s t p rest rule hs ht hbuild hps hpt hdec k
  have hstep : step s = step t :=
    calc step s
        = exec (.init rule) (latchPorts p (dequeue rest s)) := step_of_legal_word hps hdec
      _ = exec (.init rule) (latchPorts p (dequeue rest t)) := 
        exec_init_congr (s := latchPorts p (dequeue rest s)) (t := latchPorts p (dequeue rest t))
          hs ht hbuild rfl rfl rule
      _ = step t := (step_of_legal_word hpt hdec).symm
  exact runFor_succ_congr hstep k

/-- Settles O20: the loop of RUN collects, and leaves, iterates of the next generation. -/
theorem runEmitsEachGenerationThenSteps : Obligations.RunEmitsEachGenerationThenSteps := by
  intro n s T S h
  rw [exec_run_of_running h, capturedRows_eq_map_iterate, advance_eq_iterate]
  rfl

/-- Settles O21: the second RUN starts on the generation the first one left, and so does each STEP. -/
theorem runsCompose : Obligations.RunsCompose := by
  constructor
  · intro a b s T S h
    have hmid := h.respond_writeCells (advance T a S) (.rows (capturedRows T a S))
    refine ⟨_, _, _, _, exec_run_of_running h a, rfl, exec_run_of_running hmid b, rfl, ?_⟩
    rw [exec_run_of_running h, capturedRows_add, advance_add]
    rfl
  · intro n s T S h
    obtain ⟨t, ht, hcells⟩ := execTimes_step_of_running h n
    exact ⟨t, _, ht, exec_run_of_running h n, hcells.symm⟩

/-- Settles O22: INIT leaves a running block that holds the converted seed, and RUN captures before it steps. -/
theorem firstRowAndShapeOfRunRows : Obligations.FirstRowAndShapeOfRunRows := by
  constructor
  · intro rule n s h hseed
    have hrun := h.running_respond_construct rule (seedBits s.ports.seedIn) .unit
    refine ⟨_, _, _, exec_init_of_presentable h hseed rule, exec_run_of_running hrun n, rfl, fun hn => ?_⟩
    rw [capturedRows_head? rule hn, rowOf_seedBits]
  · intro n s T S h hlen
    refine ⟨_, _, exec_run_of_running h n, rfl, capturedRows_length T n S, fun row hrow => ?_⟩
    obtain ⟨hrowlen, hvalues⟩ := mem_capturedRows hrow
    exact ⟨hrowlen.trans hlen, hvalues⟩

/-- Settles O43: a faulted block ignores the command; a ready one records UNINIT or gets a generation as long. -/
theorem stepAndRunFrame : Obligations.StepAndRunFrame := by
  intro i s t hi h
  rcases exec_next h with ⟨-, -, rfl⟩ | ⟨-, he⟩
  · exact ⟨rfl, .inl rfl, rfl⟩
  · rcases he.uninit_or_writeCells hi with rfl | ⟨S, S', r, hcells, hlen, rfl⟩
    · exact ⟨rfl, .inr ⟨rfl, rfl⟩, rfl⟩
    · exact ⟨rfl, .inl rfl, by simp [hcells, hlen]⟩

/-- Settles O44: a faulted block ignores INIT, and on a ready one it constructs and responds. -/
theorem initFrame : Obligations.InitFrame := by
  intro rule s t h
  rcases exec_next h with ⟨-, -, rfl⟩ | ⟨-, -, rfl⟩
  · rfl
  · rfl

/-- Settles O11: the writes of INIT, on a block that has recorded no fault. -/
theorem initConstructsFromSeedAndRule : Obligations.InitConstructsFromSeedAndRule := by
  intro rule s h hseed
  have hfault : s.status.fault = .none := h.2
  rw [exec_init_of_presentable h hseed, ← hfault]
  rfl

/-- Settles O17: STEP on a running block writes STATE as a whole and responds. -/
theorem stepReplacesTheGeneration : Obligations.StepReplacesTheGeneration :=
  fun _ _ _ h => exec_step_of_running h

end Sys2Proof.Proofs
end

section
/-! PROOF. The three texts of the glyph packer, row by row (42_glyph_packer.md R150 to R166, R172). -/

namespace Sys2Proof.Machine

/-- A RENDER command on a ready block goes on with the matrix on the port, INIT or not (42_glyph_packer.md R154). -/
theorem whenReady_sampleMatrix {s : State} (h : Ready s) (hm : matrixPresentable s.build s.ports.matIn = true)
    (k : CellMatrix → Result) : whenReady s (sampleMatrix s k) = k s.ports.matIn := by
  rw [whenReady_of_ready h, sampleMatrix_of_presentable hm]

theorem digitChar_toNat (c : Color) : (digitChar c).toNat = 0x30 + (colorIndex c).toNat := by
  cases c <;> rfl

/-- A choice by litness is a choice by sign. -/
theorem ite_lit {α : Type} (v : Int) (a b : α) : (if lit v = true then a else b) = if 0 < v then a else b := by
  simp only [lit_iff]

theorem asciiText_cons (row : List Int) (m : CellMatrix) :
    asciiText (row :: m) = row.map asciiChar ++ [lfChar] ++ asciiText m :=
  List.flatMap_cons

theorem asciiChar_ne_lfChar (v : Int) : asciiChar v ≠ lfChar := by
  unfold asciiChar
  split <;> decide

theorem count_lfChar_asciiText (m : CellMatrix) : (asciiText m).count lfChar = m.length := by
  induction m with
  | nil => rfl
  | cons row m ih =>
    have hrow : (row.map asciiChar).count lfChar = 0 :=
      List.count_eq_zero.2 fun h => by
        obtain ⟨v, -, hv⟩ := List.mem_map.1 h
        exact asciiChar_ne_lfChar v hv
    rw [asciiText_cons, List.count_append, List.count_append, hrow, ih, List.count_singleton_self, List.length_cons]
    omega

/-- Walking two lists by position up to the shorter one is zipping them. -/
theorem flatMap_range_getD_eq_zipWith {α : Type} (f : Int → Int → List α) (xs ys : List Int) :
    (List.range (min xs.length ys.length)).flatMap (fun i => f (xs.getD i 0) (ys.getD i 0))
      = (List.zipWith f xs ys).flatten := by
  induction xs generalizing ys with
  | nil => simp
  | cons x xs ih =>
    cases ys with
    | nil => simp
    | cons y ys =>
      rw [List.length_cons, List.length_cons, Nat.add_min_add_right, List.range_succ_eq_map, List.flatMap_cons,
        List.flatMap_map, List.zipWith_cons_cons, List.flatten_cons, ← ih ys]
      rfl

theorem halfLine_eq_zipWith (fg bg : Color) (top bot : List Int) :
    halfLine fg bg top bot = (List.zipWith (halfGlyph fg bg) top bot).flatten ++ [lfChar] := by
  rw [halfLine, flatMap_range_getD_eq_zipWith]

theorem halfText_of_short (fg bg : Color) {m : CellMatrix} (h : m.length < 2) : halfText fg bg m = [] := by
  rw [halfText, Nat.div_eq_of_lt h]
  rfl

theorem halfText_cons_cons (fg bg : Color) (top bot : List Int) (m : CellMatrix) :
    halfText fg bg (top :: bot :: m) = halfLine fg bg top bot ++ halfText fg bg m := by
  have hpairs : (top :: bot :: m).length / 2 = m.length / 2 + 1 := by
    simp only [List.length_cons]; omega
  rw [halfText, hpairs, List.range_succ_eq_map, List.flatMap_cons, List.flatMap_map]
  rfl

theorem brailleLines_of_short {m : CellMatrix} (h : m.length < 4) : brailleLines m = [] := by
  rw [brailleLines, Nat.div_eq_of_lt h]
  rfl

/-- Four rows more in front move every row chunk up by one. -/
theorem chunkRow_succ (a b c d : List Int) (m : CellMatrix) (k : Nat) (dr : Fin 4) :
    chunkRow (a :: b :: c :: d :: m) (k + 1) dr = chunkRow m k dr := by
  have hpos : 4 * (k + 1) + dr.val = 4 * k + dr.val + 1 + 1 + 1 + 1 := by omega
  simp only [chunkRow, hpos, List.getD_cons_succ]

theorem chunkBlock_succ (a b c d : List Int) (m : CellMatrix) (k j : Nat) :
    chunkBlock (a :: b :: c :: d :: m) (k + 1) j = chunkBlock m k j :=
  funext₂ fun dr dc => by rw [chunkBlock, chunkRow_succ, chunkBlock]

theorem brailleLine_succ (a b c d : List Int) (m : CellMatrix) (k : Nat) :
    brailleLine (a :: b :: c :: d :: m) (k + 1) = brailleLine m k := by
  simp only [brailleLine, chunkWidth, chunkRow_succ, chunkBlock_succ]

theorem chunkRow_zero (a b c d : List Int) (m : CellMatrix) (dr : Fin 4) :
    chunkRow (a :: b :: c :: d :: m) 0 dr = [a, b, c, d].getD dr.val [] := by
  fin_cases dr <;> rfl

theorem brailleLines_cons_four (a b c d : List Int) (m : CellMatrix) :
    brailleLines (a :: b :: c :: d :: m) = brailleLine (a :: b :: c :: d :: m) 0 ++ brailleLines m := by
  have hchunks : (a :: b :: c :: d :: m).length / 4 = m.length / 4 + 1 := by
    simp only [List.length_cons]; omega
  rw [brailleLines, hchunks, List.range_succ_eq_map, List.flatMap_cons, List.flatMap_map]
  simp only [brailleLine_succ, Nat.succ_eq_add_one, brailleLines]

/-- A cell that is mapped by something that keeps litness is lit alike, on the row and past its end. -/
theorem lit_getD_map {f : Int → Int} (hf : ∀ v, lit (f v) = lit v) (row : List Int) (i : Nat) :
    lit ((row.map f).getD i 0) = lit (row.getD i 0) := by
  rw [List.getD_eq_getElem?_getD, List.getD_eq_getElem?_getD, List.getElem?_map]
  cases row[i]? with
  | none => rfl
  | some v => exact hf v

theorem getD_map_map (f : Int → Int) (m : CellMatrix) (i : Nat) :
    (m.map (List.map f)).getD i [] = (m.getD i []).map f :=
  List.getD_map m [] (List.map f)

theorem asciiText_map {f : Int → Int} (hf : ∀ v, lit (f v) = lit v) (m : CellMatrix) :
    asciiText (m.map (List.map f)) = asciiText m := by
  have hchar : asciiChar ∘ f = asciiChar := funext fun v => by simp only [Function.comp_apply, asciiChar, hf]
  simp only [asciiText, List.flatMap_map, List.map_map, hchar]

theorem halfLine_map {f : Int → Int} (hf : ∀ v, lit (f v) = lit v) (fg bg : Color) (top bot : List Int) :
    halfLine fg bg (top.map f) (bot.map f) = halfLine fg bg top bot := by
  simp only [halfLine, halfGlyph, List.length_map, lit_getD_map hf]

theorem halfText_map {f : Int → Int} (hf : ∀ v, lit (f v) = lit v) (fg bg : Color) (m : CellMatrix) :
    halfText fg bg (m.map (List.map f)) = halfText fg bg m := by
  simp only [halfText, List.length_map, getD_map_map, halfLine_map hf]

theorem chunkRow_map (f : Int → Int) (m : CellMatrix) (k : Nat) (dr : Fin 4) :
    chunkRow (m.map (List.map f)) k dr = (chunkRow m k dr).map f :=
  getD_map_map f m _

theorem brailleGlyph_congr {B B' : Fin 4 → Fin 2 → Int} (h : ∀ dr dc, lit (B dr dc) = lit (B' dr dc)) :
    brailleGlyph B = brailleGlyph B' := by
  simp only [brailleGlyph, dotSum, dotValue, h]

theorem brailleLine_map {f : Int → Int} (hf : ∀ v, lit (f v) = lit v) (m : CellMatrix) :
    brailleLine (m.map (List.map f)) = brailleLine m := by
  have hglyph (k j : Nat) : brailleGlyph (chunkBlock (m.map (List.map f)) k j) = brailleGlyph (chunkBlock m k j) :=
    brailleGlyph_congr fun dr dc => by simp only [chunkBlock, chunkRow_map, lit_getD_map hf]
  funext k
  simp only [brailleLine, chunkWidth, chunkRow_map, List.length_map, hglyph]

theorem brailleText_map {f : Int → Int} (hf : ∀ v, lit (f v) = lit v) (fg bg : Color) (m : CellMatrix) :
    brailleText fg bg (m.map (List.map f)) = brailleText fg bg m := by
  simp only [brailleText, brailleLines, List.length_map, brailleLine_map hf]

/-- The 0/1 value of a cell is lit when the cell is. -/
theorem lit_ite_pos (v : Int) : lit (if 0 < v then 1 else 0) = lit v := by
  by_cases h : 0 < v <;> simp [lit, toBit, h]

end Sys2Proof.Machine

namespace Sys2Proof.Proofs

open Sys2Proof.Machine

/-- Settles O25: a line-break ends each row's line, and no cell's character is one. -/
theorem asciiTextIsOneLinePerRow : Obligations.AsciiTextIsOneLinePerRow := by
  refine ⟨rfl, fun row m => ?_, count_lfChar_asciiText⟩
  simp only [asciiText_cons, ← ite_lit]
  rfl

/-- Settles O27: a pair of rows in front gives its line, the zip of the two rows, and then the text of the rest. -/
theorem halfTextTakesRowsInPairs : Obligations.HalfTextTakesRowsInPairs := by
  refine fun fg bg => ⟨rfl, fun row => halfText_of_short fg bg Nat.one_lt_two, fun top bot m => ?_⟩
  simp only [halfText_cons_cons, halfLine_eq_zipWith, ← ite_lit]
  rfl

/-- Settles O29: four rows in front give the line of chunk 0, and then the lines of the rest. -/
theorem brailleTextTakesRowsInFours : Obligations.BrailleTextTakesRowsInFours := by
  refine ⟨fun _ _ _ => rfl, fun m => brailleLines_of_short, fun a b c d m => ?_⟩
  have hblock (j : Nat) : chunkBlock (a :: b :: c :: d :: m) 0 j =
      fun dr dc => ([a, b, c, d].getD dr.val []).getD (2 * j + dc.val) 0 :=
    funext₂ fun dr dc => by rw [chunkBlock, chunkRow_zero]
  simp only [brailleLines_cons_four, brailleLine, hblock]
  rfl

/-- Settles O34: taking the 0/1 value keeps the litness of every cell, and the texts depend on no more. -/
theorem onlyLitnessOfCellsIsRendered : Obligations.OnlyLitnessOfCellsIsRendered :=
  fun fg bg m => ⟨asciiText_map lit_ite_pos m, halfText_map lit_ite_pos fg bg m, brailleText_map lit_ite_pos fg bg m⟩

/-- Settles O23: an escape's only variable character is the digit of its colour. -/
theorem escapesSpellTheColourDigits : Obligations.EscapesSpellTheColourDigits := by
  refine ⟨fun c => ?_, rfl, rfl, rfl⟩
  constructor
  · rw [← digitChar_toNat]; rfl
  · rw [← digitChar_toNat]; rfl

/-- Settles O24: a ready block goes on with the matrix it samples. -/
theorem renderAsciiAnswersItsText : Obligations.RenderAsciiAnswersItsText :=
  fun _ h hm => whenReady_sampleMatrix h hm _

/-- Settles O26: a ready block goes on with the matrix it samples. -/
theorem renderHalfAnswersItsText : Obligations.RenderHalfAnswersItsText :=
  fun _ _ _ h hm => whenReady_sampleMatrix h hm _

/-- Settles O28: a ready block goes on with the matrix it samples. -/
theorem renderBrailleAnswersItsText : Obligations.RenderBrailleAnswersItsText :=
  fun _ _ _ h hm => whenReady_sampleMatrix h hm _

end Sys2Proof.Proofs
end

section
/-! PROOF. The braille code points (42_glyph_packer.md R170, R171): the dots of a block are disjoint bits of its sum. -/

namespace Sys2Proof.Machine

/-- Numbers without a common bit add without a carry. -/
theorem add_eq_or_of_and_eq_zero {a b : Nat} (h : a &&& b = 0) : a + b = a ||| b := by
  have hw : a + b < 2 ^ (a + b) := Nat.lt_two_pow_self
  have hbv : BitVec.ofNat (a + b) a + BitVec.ofNat (a + b) b = BitVec.ofNat (a + b) a ||| BitVec.ofNat (a + b) b :=
    BitVec.add_eq_or_of_and_eq_zero _ _ (by rw [← BitVec.ofNat_and, h])
  have hnat := congrArg BitVec.toNat hbv
  rwa [← BitVec.ofNat_add, ← BitVec.ofNat_or, BitVec.toNat_ofNat, BitVec.toNat_ofNat, Nat.mod_eq_of_lt hw,
    Nat.mod_eq_of_lt (Nat.or_lt_two_pow (by omega) (by omega))] at hnat

theorem dotWeight_ne_zero (dr : Fin 4) (dc : Fin 2) : dotWeight dr dc ≠ 0 := by
  decide +revert

theorem dotWeight_and_dotWeight (dr dr' : Fin 4) (dc dc' : Fin 2) :
    dotWeight dr dc &&& dotWeight dr' dc' = if dr = dr' ∧ dc = dc' then dotWeight dr dc else 0 := by
  decide +revert

/-- Of the weights, a dot's value shows its own only. -/
theorem dotValue_and_dotWeight (B : Fin 4 → Fin 2 → Int) (dr dr' : Fin 4) (dc dc' : Fin 2) :
    dotValue B dr dc &&& dotWeight dr' dc' = if dr = dr' ∧ dc = dc' then dotValue B dr dc else 0 := by
  unfold dotValue
  split
  · exact dotWeight_and_dotWeight dr dr' dc dc'
  · simp only [Nat.zero_and, ite_self]

/-- The values of different dots have no bit in common. -/
theorem dotValue_and_dotValue (B : Fin 4 → Fin 2 → Int) {dr dr' : Fin 4} {dc dc' : Fin 2} (h : ¬(dr = dr' ∧ dc = dc')) :
    dotValue B dr dc &&& dotValue B dr' dc' = 0 := by
  by_cases hlit : lit (B dr' dc') = true
  · rw [dotValue.eq_def B dr' dc', if_pos hlit, dotValue_and_dotWeight, if_neg h]
  · rw [dotValue.eq_def B dr' dc', if_neg hlit, Nat.and_zero]

/-- The sum of the weights never carries (42_glyph_packer.md R171): each summand has no bit of those before it. -/
theorem dotSum_eq_or (B : Fin 4 → Fin 2 → Int) :
    dotSum B = dotValue B 0 0 ||| dotValue B 0 1 ||| dotValue B 1 0 ||| dotValue B 1 1
      ||| dotValue B 2 0 ||| dotValue B 2 1 ||| dotValue B 3 0 ||| dotValue B 3 1 := by
  simp [dotSum, add_eq_or_of_and_eq_zero, Nat.and_or_distrib_right, dotValue_and_dotValue]

/-- A dot's value can be read back from the sum. -/
theorem dotSum_and_dotWeight (B : Fin 4 → Fin 2 → Int) (dr : Fin 4) (dc : Fin 2) :
    dotSum B &&& dotWeight dr dc = dotValue B dr dc := by
  simp only [dotSum_eq_or, Nat.and_or_distrib_right, dotValue_and_dotWeight]
  fin_cases dr <;> fin_cases dc <;> simp

theorem dotValue_eq_zero_iff (B : Fin 4 → Fin 2 → Int) (dr : Fin 4) (dc : Fin 2) :
    dotValue B dr dc = 0 ↔ lit (B dr dc) = false := by
  cases hlit : lit (B dr dc) <;> simp [dotValue, hlit, dotWeight_ne_zero]

theorem lit_eq_of_dotSum_eq {B B' : Fin 4 → Fin 2 → Int} (h : dotSum B = dotSum B') (dr : Fin 4) (dc : Fin 2) :
    lit (B dr dc) = lit (B' dr dc) := by
  have hvalue : dotValue B dr dc = dotValue B' dr dc := by rw [← dotSum_and_dotWeight, h, dotSum_and_dotWeight]
  rw [Bool.eq_iff_iff, ← Bool.not_eq_false, ← Bool.not_eq_false, ← dotValue_eq_zero_iff, hvalue, dotValue_eq_zero_iff]

/-- A glyph's code point lies in U+2800 to U+28FF (42_glyph_packer.md R170). -/
theorem brailleGlyph_toNat_bounds (B : Fin 4 → Fin 2 → Int) :
    0x2800 ≤ (brailleGlyph B).toNat ∧ (brailleGlyph B).toNat ≤ 0x28FF := by
  have hsum := dotSum_lt B
  rw [brailleGlyph_toNat]
  omega

theorem lit_eq_lit_iff (v w : Int) : lit v = lit w ↔ (0 < v ↔ 0 < w) := by
  rw [Bool.eq_iff_iff, lit_iff, lit_iff]

/-- Glyphs are equal exactly when their blocks are lit alike (42_glyph_packer.md R170). -/
theorem brailleGlyph_eq_iff (B B' : Fin 4 → Fin 2 → Int) :
    brailleGlyph B = brailleGlyph B' ↔ ∀ dr dc, lit (B dr dc) = lit (B' dr dc) := by
  refine ⟨fun h => lit_eq_of_dotSum_eq ?_, brailleGlyph_congr⟩
  have hcode := congrArg Char.toNat h
  rw [brailleGlyph_toNat, brailleGlyph_toNat] at hcode
  omega

/-- The block whose lit dots are those with their weight in `n`. -/
def blockOfDots (n : Nat) (dr : Fin 4) (dc : Fin 2) : Int := if n &&& dotWeight dr dc = 0 then 0 else 1

/-- A dot weight is a single bit (42_glyph_packer.md R170). -/
theorem exists_dotWeight_eq_two_pow (dr : Fin 4) (dc : Fin 2) : ∃ i : Fin 8, dotWeight dr dc = 2 ^ i.val := by
  decide +revert

theorem dotValue_blockOfDots (n : Nat) (dr : Fin 4) (dc : Fin 2) :
    dotValue (blockOfDots n) dr dc = n &&& dotWeight dr dc := by
  obtain ⟨i, hi⟩ := exists_dotWeight_eq_two_pow dr dc
  have hbit := Nat.and_two_pow n i.val
  rw [← hi] at hbit
  cases hn : n.testBit i.val with
  | false =>
    have hnone : n &&& dotWeight dr dc = 0 := by simpa [hn] using hbit
    simp [dotValue, blockOfDots, hnone, lit, toBit]
  | true =>
    have hall : n &&& dotWeight dr dc = dotWeight dr dc := by simpa [hn] using hbit
    simp [dotValue, blockOfDots, hall, dotWeight_ne_zero, lit, toBit]

/-- The eight weights fill a byte, so every byte is the sum of some block. -/
theorem dotSum_blockOfDots {n : Nat} (hn : n < 0x100) : dotSum (blockOfDots n) = n := by
  calc dotSum (blockOfDots n)
      = n &&& (dotWeight 0 0 ||| dotWeight 0 1 ||| dotWeight 1 0 ||| dotWeight 1 1
          ||| dotWeight 2 0 ||| dotWeight 2 1 ||| dotWeight 3 0 ||| dotWeight 3 1) := by
        simp only [dotSum_eq_or, dotValue_blockOfDots, Nat.and_or_distrib_left]
    _ = n &&& (2 ^ 8 - 1) := rfl
    _ = n := by rw [Nat.and_two_pow_sub_one_eq_mod, Nat.mod_eq_of_lt hn]

end Sys2Proof.Machine

namespace Sys2Proof.Proofs

open Sys2Proof.Machine

/-- Settles O30: the sum of a block's weights shows each dot, and every byte is such a sum. -/
theorem brailleGlyphsNameTheirDots : Obligations.BrailleGlyphsNameTheirDots := by
  refine ⟨by decide, fun B B' => ?_, brailleGlyph_toNat_bounds, fun n hlo hhi => ⟨blockOfDots (n - 0x2800), ?_⟩⟩
  · simp only [brailleGlyph_eq_iff, lit_eq_lit_iff]
  · rw [brailleGlyph_toNat, dotSum_blockOfDots (by omega)]
    omega

/-- Settles O31: the code point is the sum, and the summands have no bit in common. -/
theorem brailleCodePointIsTheOrOfTheWeights : Obligations.BrailleCodePointIsTheOrOfTheWeights := by
  intro B
  have hcode := brailleGlyph_toNat B
  have hor := dotSum_eq_or B
  simp only [dotSum, dotValue, ite_lit] at hcode hor
  exact ⟨hcode, hor⟩

end Sys2Proof.Proofs
end

section
/-! PROOF. Where the escapes stand in the coloured texts (42_glyph_packer.md R173), and the alphabet of each text
(90_conflicts.md C6). Framing passes to texts
put one after the other, so it is proved glyph by glyph. -/

namespace Sys2Proof.Machine

/-- What holds of the empty text, of each piece, and of two texts put together holds of all the pieces in a row. -/
theorem flatMap_induction {α β : Type} {P : List β → Prop} {f : α → List β} {l : List α} (nil : P [])
    (append : ∀ t u, P t → P u → P (t ++ u)) (piece : ∀ x, P (f x)) : P (l.flatMap f) := by
  induction l with
  | nil => exact nil
  | cons x l ih => exact List.flatMap_cons ▸ append _ _ (piece x) ih

/-- A half-block text is made of glyphs and line-breaks (42_glyph_packer.md R165). -/
theorem halfText_induction {P : Text → Prop} {fg bg : Color} (nil : P []) (append : ∀ t u, P t → P u → P (t ++ u))
    (lf : P [lfChar]) (glyph : ∀ top bot, P (halfGlyph fg bg top bot)) (m : CellMatrix) : P (halfText fg bg m) :=
  flatMap_induction nil append fun _ =>
    append _ _ (flatMap_induction nil append fun _ => glyph _ _) lf

/-- The lines of a braille text are made of glyphs and line-breaks (42_glyph_packer.md R172). -/
theorem mem_brailleLines {m : CellMatrix} {c : Char} (h : c ∈ brailleLines m) :
    (∃ B, c = brailleGlyph B) ∨ c = lfChar := by
  obtain ⟨k, -, hc⟩ := List.mem_flatMap.1 h
  rcases List.mem_append.1 hc with hc | hc
  · obtain ⟨j, -, rfl⟩ := List.mem_map.1 hc
    exact .inl ⟨_, rfl⟩
  · exact .inr (List.mem_singleton.1 hc)

theorem count_escChar_fgEsc (c : Color) : (fgEsc c).count escChar = 1 := by
  cases c <;> decide

theorem count_escChar_bgEsc (c : Color) : (bgEsc c).count escChar = 1 := by
  cases c <;> decide

theorem count_escChar_resetEsc : resetEsc.count escChar = 1 := by
  decide

theorem halfBlock_notMem_fgEsc (c : Color) : halfBlock ∉ fgEsc c := by
  cases c <;> decide

theorem halfBlock_notMem_bgEsc (c : Color) : halfBlock ∉ bgEsc c := by
  cases c <;> decide

theorem halfBlock_notMem_resetEsc : halfBlock ∉ resetEsc := by
  decide

/-- The colour a half-block channel takes: a lit cell's is `fg` (42_glyph_packer.md R166). -/
def channelColor (fg bg : Color) (v : Int) : Color := if lit v then fg else bg

theorem channelColor_eq_or (fg bg : Color) (v : Int) : channelColor fg bg v = fg ∨ channelColor fg bg v = bg :=
  ite_eq_or_eq ..

/-- A channel's escape is one of the two colours'. -/
theorem mem_escape_channelColor {escape : Color → Text} {fg bg : Color} {v : Int} {c : Char}
    (h : c ∈ escape (channelColor fg bg v)) : c ∈ escape fg ∨ c ∈ escape bg := by
  rcases channelColor_eq_or fg bg v with hv | hv
  · exact .inl (hv ▸ h)
  · exact .inr (hv ▸ h)

/-- A half-block glyph between its escapes (42_glyph_packer.md R165). -/
theorem halfGlyph_eq (fg bg : Color) (top bot : Int) :
    halfGlyph fg bg top bot =
      (bgEsc (channelColor fg bg top) ++ fgEsc (channelColor fg bg bot)) ++ halfBlock :: resetEsc := by
  rw [halfGlyph, channelColor, channelColor, apply_ite bgEsc, apply_ite fgEsc, List.append_assoc, List.singleton_append]

/-- Every half-block glyph of the text stands between its escapes, in the colours `fg` and `bg`. -/
def GlyphsFramed (fg bg : Color) (t : Text) : Prop :=
  ∀ before after, t = before ++ halfBlock :: after →
    (∃ top bot : Color, (top = fg ∨ top = bg) ∧ (bot = fg ∨ bot = bg) ∧ (bgEsc top ++ fgEsc bot) <:+ before) ∧
    resetEsc <+: after

theorem glyphsFramed_of_notMem (fg bg : Color) {t : Text} (h : halfBlock ∉ t) : GlyphsFramed fg bg t :=
  fun before _ ht => absurd (ht ▸ List.mem_append_right before List.mem_cons_self) h

/-- A character of two texts put together stands in the second or in the first. -/
theorem split_append {α : Type} {t u before after : List α} {c : α} (h : t ++ u = before ++ c :: after) :
    (∃ mid, before = t ++ mid ∧ u = mid ++ c :: after) ∨ ∃ mid, t = before ++ c :: mid ∧ after = mid ++ u := by
  rcases List.append_eq_append_iff.1 h with hu | ⟨mid, rfl, hmid⟩
  · exact .inl hu
  · cases mid with
    | nil => exact .inl ⟨[], by simp, hmid.symm⟩
    | cons d mid =>
      obtain ⟨rfl, rfl⟩ := List.cons.inj hmid
      exact .inr ⟨mid, rfl, rfl⟩

theorem GlyphsFramed.append {fg bg : Color} {t u : Text} (ht : GlyphsFramed fg bg t) (hu : GlyphsFramed fg bg u) :
    GlyphsFramed fg bg (t ++ u) := by
  intro before after h
  rcases split_append h with ⟨mid, rfl, hmid⟩ | ⟨mid, hmid, rfl⟩
  · obtain ⟨⟨top, bot, htop, hbot, hbefore⟩, hreset⟩ := hu mid after hmid
    exact ⟨⟨top, bot, htop, hbot, hbefore.trans (List.suffix_append _ _)⟩, hreset⟩
  · obtain ⟨hescapes, hreset⟩ := ht before mid hmid
    exact ⟨hescapes, hreset.trans (List.prefix_append _ _)⟩

theorem glyphsFramed_halfGlyph (fg bg : Color) (top bot : Int) : GlyphsFramed fg bg (halfGlyph fg bg top bot) := by
  intro before after h
  have hescapes : halfBlock ∉ bgEsc (channelColor fg bg top) ++ fgEsc (channelColor fg bg bot) := by
    simp only [List.mem_append, halfBlock_notMem_bgEsc, halfBlock_notMem_fgEsc, or_self, not_false_eq_true]
  rw [halfGlyph_eq] at h
  obtain ⟨rfl, -, rfl⟩ := (List.append_cons_inj_of_notMem hescapes halfBlock_notMem_resetEsc).1 h
  exact ⟨⟨_, _, channelColor_eq_or fg bg top, channelColor_eq_or fg bg bot, List.suffix_rfl⟩, List.prefix_rfl⟩

theorem count_escChar_halfGlyph (fg bg : Color) (top bot : Int) : (halfGlyph fg bg top bot).count escChar = 3 := by
  have hblock : halfBlock ≠ escChar := by decide
  simp only [halfGlyph_eq, List.count_append, List.count_cons_of_ne hblock, count_escChar_bgEsc, count_escChar_fgEsc,
    count_escChar_resetEsc]

theorem count_halfBlock_halfGlyph (fg bg : Color) (top bot : Int) :
    (halfGlyph fg bg top bot).count halfBlock = 1 := by
  simp only [halfGlyph_eq, List.count_append, List.count_cons_self, List.count_eq_zero.2 (halfBlock_notMem_bgEsc _),
    List.count_eq_zero.2 (halfBlock_notMem_fgEsc _), List.count_eq_zero.2 halfBlock_notMem_resetEsc]

theorem glyphsFramed_halfText (fg bg : Color) (m : CellMatrix) : GlyphsFramed fg bg (halfText fg bg m) :=
  halfText_induction (glyphsFramed_of_notMem fg bg List.not_mem_nil) (fun _ _ => GlyphsFramed.append)
    (glyphsFramed_of_notMem fg bg (by decide)) (glyphsFramed_halfGlyph fg bg) m

/-- Three escapes stand at each half-block glyph, and nowhere else (42_glyph_packer.md R173). -/
theorem count_escChar_halfText (fg bg : Color) (m : CellMatrix) :
    (halfText fg bg m).count escChar = 3 * (halfText fg bg m).count halfBlock := by
  refine halfText_induction (P := fun t => t.count escChar = 3 * t.count halfBlock) rfl (fun t u ht hu => ?_)
    (by decide) (fun top bot => ?_) m
  · rw [List.count_append, List.count_append, ht, hu, Nat.mul_add]
  · rw [count_escChar_halfGlyph, count_halfBlock_halfGlyph]

theorem escChar_notMem_brailleLines (m : CellMatrix) : escChar ∉ brailleLines m := by
  intro h
  rcases mem_brailleLines h with ⟨B, hB⟩ | hlf
  · have hcode := (brailleGlyph_toNat_bounds B).1
    rw [← hB] at hcode
    exact absurd hcode (by decide)
  · exact absurd hlf (by decide)

theorem count_escChar_brailleText (fg bg : Color) (m : CellMatrix) : (brailleText fg bg m).count escChar = 3 := by
  simp only [brailleText, List.count_append, count_escChar_fgEsc, count_escChar_bgEsc, count_escChar_resetEsc,
    List.count_eq_zero.2 (escChar_notMem_brailleLines m)]

theorem mem_halfGlyph {fg bg : Color} {top bot : Int} {c : Char} (h : c ∈ halfGlyph fg bg top bot) :
    c = halfBlock ∨ c ∈ fgEsc fg ++ fgEsc bg ++ bgEsc fg ++ bgEsc bg ++ resetEsc := by
  simp only [halfGlyph_eq, List.mem_append, List.mem_cons] at h ⊢
  rcases h with (hback | hfore) | hblock | hreset
  · exact .inr (by rcases mem_escape_channelColor hback with hc | hc <;> simp only [hc, true_or, or_true])
  · exact .inr (by rcases mem_escape_channelColor hfore with hc | hc <;> simp only [hc, true_or, or_true])
  · exact .inl hblock
  · exact .inr (.inr hreset)

/-- The alphabet of RENDER_HALF (90_conflicts.md C6). -/
theorem mem_halfText {fg bg : Color} {m : CellMatrix} {c : Char} (h : c ∈ halfText fg bg m) :
    c = halfBlock ∨ c = lfChar ∨ c ∈ fgEsc fg ++ fgEsc bg ++ bgEsc fg ++ bgEsc bg ++ resetEsc := by
  obtain ⟨k, -, hline⟩ := List.mem_flatMap.1 h
  rcases List.mem_append.1 hline with hglyphs | hlf
  · obtain ⟨i, -, hglyph⟩ := List.mem_flatMap.1 hglyphs
    exact (mem_halfGlyph hglyph).imp_right .inr
  · exact .inr (.inl (List.mem_singleton.1 hlf))

/-- The alphabet of RENDER_BRAILLE (90_conflicts.md C6). -/
theorem mem_brailleText {fg bg : Color} {m : CellMatrix} {c : Char} (h : c ∈ brailleText fg bg m) :
    (0x2800 ≤ c.toNat ∧ c.toNat ≤ 0x28FF) ∨ c = lfChar ∨ c ∈ fgEsc fg ++ bgEsc bg ++ resetEsc := by
  rcases List.mem_append.1 h with h | hreset
  · rcases List.mem_append.1 h with hescapes | hlines
    · exact .inr (.inr (List.mem_append_left _ hescapes))
    · rcases mem_brailleLines hlines with ⟨B, rfl⟩ | hlf
      · exact .inl (brailleGlyph_toNat_bounds B)
      · exact .inr (.inl hlf)
  · exact .inr (.inr (List.mem_append_right _ hreset))

end Sys2Proof.Machine

namespace Sys2Proof.Proofs

open Sys2Proof.Machine

/-- Settles O32: the framing and the count hold of every glyph and line-break and pass to texts made of them; the lines
of a braille text hold no escape. -/
theorem escapeFramingOfTheTwoColouredEncodings : Obligations.EscapeFramingOfTheTwoColouredEncodings := by
  intro fg bg m
  refine ⟨glyphsFramed_halfText fg bg m, count_escChar_halfText fg bg m, count_escChar_brailleText fg bg m, ?_, ?_⟩
  · rw [brailleText, List.append_assoc]
    exact List.prefix_append _ _
  · exact List.suffix_append _ _

/-- Settles O33: the alphabets of the three texts. -/
theorem textsStayInTheOutputAlphabet : Obligations.TextsStayInTheOutputAlphabet :=
  fun _ _ _ => ⟨fun _ => mem_asciiText, fun _ => mem_halfText, fun _ => mem_brailleText⟩

end Sys2Proof.Proofs
end

section
/-! PROOF. A recorded fault (60_exceptions.md R201, R202, R209): the faulted block takes the host's commands off the
queue and does nothing else, until a reset. -/

namespace Sys2Proof.Machine

theorem executeWord_of_faulted {s : State} (hL : 0 < s.build.L) (hf : s.status.fault ≠ .none) :
    executeWord s = .next (ignoreCommand s) :=
  whenReady_of_faulted hL hf _

theorem step_of_faulted_command {s : State} {p : Ports} {rest : List HostAction} (hL : 0 < s.build.L)
    (hf : s.status.fault ≠ .none) (hq : s.pending = .command p :: rest) :
    step s = .next (ignoreCommand (latchPorts p (dequeue rest s))) :=
  (step_of_pending hq).trans (executeWord_of_faulted (s := latchPorts p (dequeue rest s)) hL hf)

theorem runFor_succ_of_step {s t : State} (h : step s = .next t) (k : Nat) : runFor (k + 1) s = runFor k t := by
  simp only [runFor, h]

theorem transcript_succ_of_idle {s : State} (hq : s.pending = []) (k : Nat) :
    transcript (k + 1) s = transcript k s := by
  simp only [transcript, hq, step_of_idle hq]

/-- A command that gives no response adds nothing to the transcript. -/
theorem transcript_succ_of_no_response {s t : State} (h : step s = .next t) (hr : t.rsp = none) (k : Nat) :
    transcript (k + 1) s = transcript k t := by
  rcases hq : s.pending with _ | ⟨_ | p, rest⟩ <;> simp [transcript, hq, h, hr]

/-- Over any number of steps without a reset a faulted block holds its registers and gives no response. -/
theorem runFor_of_faulted {k : Nat} {s : State} (hL : 0 < s.build.L) (hf : s.status.fault ≠ .none)
    (hno : ∀ a ∈ s.pending.take k, a ≠ .rst) :
    (∃ t, runFor k s = .next t ∧ t.status = s.status ∧ t.rule = s.rule ∧ t.cells = s.cells ∧
      t.pending = s.pending.drop k) ∧
    transcript k s = [] := by
  induction k generalizing s with
  | zero => exact ⟨⟨s, rfl, rfl, rfl, rfl, rfl⟩, rfl⟩
  | succ k ih =>
    rcases hq : s.pending with _ | ⟨_ | p, rest⟩
    · rw [runFor_succ_of_step (step_of_idle hq), transcript_succ_of_idle hq]
      simpa [hq] using ih hL hf (by simp [hq])
    · exact absurd rfl (hno .rst (by simp [hq]))
    · have hstep := step_of_faulted_command hL hf hq
      rw [runFor_succ_of_step hstep, transcript_succ_of_no_response hstep rfl]
      have hrest : ∀ a ∈ rest.take k, a ≠ .rst := fun a ha => hno a (by simp [hq, ha])
      exact ih (s := ignoreCommand (latchPorts p (dequeue rest s))) hL hf hrest

theorem executeWord_keeps_fault {s t : State} (h : executeWord s = .next t) (hf : s.status.fault ≠ .none) :
    t.status.fault = s.status.fault := by
  obtain ⟨hL, -⟩ := executeWord_next h
  cases (executeWord_of_faulted hL hf).symm.trans h
  rfl

/-- Of the steps of a faulted block only a reset writes FAULT. -/
theorem step_resets_or_keeps_fault {s t : State} (h : step s = .next t) (hf : s.status.fault ≠ .none) :
    (∃ rest, s.pending = .rst :: rest) ∨ t.status.fault = s.status.fault := by
  rcases step_next h with ⟨-, rfl⟩ | ⟨rest, hq, -, -⟩ | ⟨p, rest, -, hx⟩
  · exact .inr rfl
  · exact .inl ⟨rest, hq⟩
  · exact .inr (executeWord_keeps_fault (s := latchPorts p (dequeue rest s)) hx hf)

/-- On a build without cells no sequence of actions reaches its end (00_scope.md R7). -/
theorem not_goodEnd_of_zeroLength {s : State} {k : Nat} (hL : s.build.L = 0)
    (hk : actionsToEnd s.pending = some (k + 1)) : ¬ GoodEnd s := by
  rintro ⟨o, ho, -⟩
  cases hq : s.pending with
  | nil => simp [hq] at hk
  | cons a rest => simp [observation, hk, runFor, step_of_zeroLength hL hq] at ho

/-- A fault recorded before the sequence is still there at its end, when no reset comes before that. -/
theorem not_goodEnd_of_faulted {s : State} {k : Nat} (hf : s.status.fault ≠ .none)
    (hk : actionsToEnd s.pending = some (k + 1)) (hno : ∀ a ∈ s.pending.take (k + 1), a ≠ .rst) : ¬ GoodEnd s := by
  rcases s.build.L.eq_zero_or_pos with hL | hL
  · exact not_goodEnd_of_zeroLength hL hk
  · obtain ⟨⟨t, hrun, hstatus, -⟩, -⟩ := runFor_of_faulted hL hf hno
    rwa [goodEnd_iff hk hrun, hstatus]

end Sys2Proof.Machine

namespace Sys2Proof.Proofs

open Sys2Proof.Machine

/-- Settles O46: the run of a faulted block by induction on the number of steps, its end by the place of the last
command in the queue. -/
theorem faultsAreSticky : Obligations.FaultsAreSticky := by
  refine ⟨fun k s hL hf hno => runFor_of_faulted hL hf hno,
    fun s t hf h hne => (step_resets_or_keeps_fault h hf).resolve_right hne, fun s front p n hf hq hfront => ?_⟩
  have hk : actionsToEnd s.pending = some (front.length + 1) := hq ▸ actionsToEnd_last front p n
  have htake : s.pending.take (front.length + 1) = front ++ [.command p] := by
    rw [hq, List.take_length_add_append]; rfl
  refine not_goodEnd_of_faulted hf hk fun a ha => ?_
  rcases List.mem_append.1 (htake ▸ ha) with ha | ha
  · exact hfront a ha
  · rw [List.mem_singleton.1 ha]; exact nofun

/-- Settles O54: the step with an empty queue. -/
theorem idleBlockHoldsItsState : Obligations.IdleBlockHoldsItsState :=
  fun _ => step_of_idle

end Sys2Proof.Proofs
end

section
/-! PROOF. Which fault a command records, when, and that it writes nothing else (60_exceptions.md R201, R203 to R207). -/

namespace Sys2Proof.Machine

/-- FAULT as executing a word leaves it: as it was, or ILLEGAL_CMD or UNINIT, raised in a block otherwise unchanged. -/
theorem executeWord_keeps_or_raises_fault {s t : State} (h : executeWord s = .next t) :
    t.status.fault = s.status.fault ∨ t = raiseFault .illegalCmd s ∨ t = raiseFault .uninit s := by
  obtain ⟨-, ⟨-, rfl⟩ | ⟨-, -, ht⟩ | ⟨i, -, -, he⟩⟩ := executeWord_next h
  · exact .inl rfl
  · exact .inr (.inl ht)
  · rcases he.raises_or_completes with ht | ⟨hfault, -, -⟩
    · exact .inr (.inr ht)
    · exact .inl hfault

/-- The block that recorded a fault before INIT, field by field. -/
theorem raiseFault_of_not_init {s : State} (hi : s.status.init = false) (code : FaultCode) :
    raiseFault code s = { s with status := { init := false, fault := code }, rsp := none } := by
  simp only [raiseFault, hi]

/-- A command keeps FAULT, unless it is STEP or RUN before INIT. -/
theorem Effect.keeps_fault_or_uninit {i : Instr} {s t : State} (h : Effect s t i) :
    t.status.fault = s.status.fault ∨ (s.status.init = false ∧ (i = .step ∨ ∃ n, i = .run n)) := by
  cases i with
  | init rule => obtain ⟨-, rfl⟩ := h; exact .inl rfl
  | step =>
    rcases h with ⟨hi, -⟩ | ⟨T, S, -, rfl⟩
    · exact .inr ⟨hi, .inl rfl⟩
    · exact .inl rfl
  | run n =>
    rcases h with ⟨hi, -⟩ | ⟨T, S, -, rfl⟩
    · exact .inr ⟨hi, .inr ⟨n, rfl⟩⟩
    · exact .inl rfl
  | rtget rule l c r => cases h; exact .inl rfl
  | renderAscii => cases h; exact .inl rfl
  | renderHalf fg bg => cases h; exact .inl rfl
  | renderBraille fg bg => cases h; exact .inl rfl

theorem exec_keeps_fault_or_uninit {i : Instr} {s t : State} (h : exec i s = .next t) :
    t.status.fault = s.status.fault ∨ (s.status.init = false ∧ (i = .step ∨ ∃ n, i = .run n)) := by
  rcases exec_next h with ⟨-, -, rfl⟩ | ⟨-, he⟩
  · exact .inl rfl
  · exact he.keeps_fault_or_uninit

theorem AnswersInKind.ne_none {i : Instr} {rsp : Option Response} (h : AnswersInKind i rsp) : rsp ≠ none := by
  rintro rfl
  cases i <;> simp [AnswersInKind] at h

end Sys2Proof.Machine

namespace Sys2Proof.Proofs

open Sys2Proof.Machine

/-- Settles O45: on a block without a fault the word that leaves one raised it. -/
theorem raisingAFaultIsPrecise : Obligations.RaisingAFaultIsPrecise := by
  intro s t hready h hfault
  rcases executeWord_keeps_or_raises_fault h with hkept | rfl | rfl
  · exact absurd (hkept.trans hready.2) hfault
  · rfl
  · rfl

/-- Settles O47: the guards of 30_encoding.md R69 in their order, and the two codes a word can raise. -/
theorem priorityOfCauses : Obligations.PriorityOfCauses := by
  refine fun s hL => ⟨executeWord_of_faulted hL, fun hf ⟨e, he⟩ => executeWord_of_decode_error ⟨hL, hf⟩ he,
    fun hf hi hdec => ?_, fun t h hs => ?_⟩
  · obtain ⟨i, hdec, hstepOrRun⟩ : ∃ i, decode s.ports.cmd = .ok i ∧ (i = .step ∨ ∃ n, i = .run n) := by
      rcases hdec with hdec | ⟨n, hdec⟩
      · exact ⟨_, hdec, .inl rfl⟩
      · exact ⟨_, hdec, .inr ⟨n, rfl⟩⟩
    rw [executeWord_of_decode_ok hdec, exec_step_or_run_of_not_init ⟨hL, hf⟩ hi hstepOrRun, raiseFault_of_not_init hi]
  · rcases executeWord_keeps_or_raises_fault h with hkept | rfl | rfl
    · rwa [hkept]
    · exact nofun
    · exact nofun

/-- Settles O48: STEP and RUN stop at their precondition, which the other commands do not have. -/
theorem uninitExactlyForStepAndRun : Obligations.UninitExactlyForStepAndRun := by
  refine ⟨fun i s hready hi hstepOrRun => ?_, fun i s t hstep hrun h => ?_⟩
  · rw [exec_step_or_run_of_not_init hready hi hstepOrRun, raiseFault_of_not_init hi]
  · rcases exec_keeps_fault_or_uninit h with hkept | ⟨-, rfl | ⟨n, rfl⟩⟩
    · exact hkept
    · exact absurd rfl hstep
    · exact absurd rfl (hrun n)

/-- Settles O49: with the invariant and presentable operands the command answers, with INIT = 1 it raises no fault, and
a command that leaves no fault has responded. -/
theorem degenerateInputsAreNotFaults : Obligations.DegenerateInputsAreNotFaults := by
  intro i s hinv hi hf hseed hmat
  obtain ⟨t, h⟩ := hinv.exec_answers hseed hmat i
  have hkept : t.status.fault = s.status.fault :=
    (exec_keeps_fault_or_uninit h).resolve_right fun ⟨hnot, _⟩ => by simp [hi] at hnot
  have hnone : t.status.fault = .none := hkept.trans hf
  exact ⟨t, h, hnone, (exec_answersInKind h hnone).ne_none⟩

end Sys2Proof.Proofs
end

section
/-! PROOF. The end of a command sequence (60_exceptions.md R215; 70_reset_and_hazards.md R230). What a step answers does
not depend on the actions queued behind the one it takes, so actions appended to the queue change nothing of a run that
does not reach them. -/

namespace Sys2Proof.Machine

/-- The answer with `f` applied to its next state; a stop stays the stop it is. -/
def mapNext (f : State → State) : Result → Result
  | .next t => .next (f t)
  | .fault e => .fault e
  | .refused e => .refused e

@[simp] theorem mapNext_next (f : State → State) (t : State) : mapNext f (.next t) = .next (f t) := rfl

@[simp] theorem mapNext_fault (f : State → State) (e : Fault) : mapNext f (.fault e) = .fault e := rfl

@[simp] theorem mapNext_refused (f : State → State) (e : Refusal) : mapNext f (.refused e) = .refused e := rfl

/- The guards and the sampling of operands do not look at the queue: with another queue they answer the same, over it. -/

section

variable {q : List HostAction} {s : State}

theorem whenReady_dequeue {k k' : Result} (hk : k' = mapNext (dequeue q) k) :
    whenReady (dequeue q s) k' = mapNext (dequeue q) (whenReady s k) := by
  simp only [whenReady, apply_ite (mapNext (dequeue q)), hk]
  rfl

theorem whenConstructed_dequeue {k k' : RuleNum → List Bit → Result}
    (hk : ∀ T S, k' T S = mapNext (dequeue q) (k T S)) :
    whenConstructed (dequeue q s) k' = mapNext (dequeue q) (whenConstructed s k) := by
  simp only [whenConstructed, apply_ite (mapNext (dequeue q)), dequeue_rule, dequeue_cells, hk]
  cases s.rule <;> cases s.cells <;> rfl

theorem sampleSeed_dequeue {k k' : List Int → Result} (hk : ∀ seed, k' seed = mapNext (dequeue q) (k seed)) :
    sampleSeed (dequeue q s) k' = mapNext (dequeue q) (sampleSeed s k) := by
  simp only [sampleSeed, apply_ite (mapNext (dequeue q)), hk]
  rfl

theorem sampleMatrix_dequeue {k k' : CellMatrix → Result} (hk : ∀ m, k' m = mapNext (dequeue q) (k m)) :
    sampleMatrix (dequeue q s) k' = mapNext (dequeue q) (sampleMatrix s k) := by
  simp only [sampleMatrix, apply_ite (mapNext (dequeue q)), hk]
  rfl

end

/-- A command neither reads nor writes the host's queue. -/
theorem exec_dequeue (i : Instr) (q : List HostAction) (s : State) :
    exec i (dequeue q s) = mapNext (dequeue q) (exec i s) := by
  cases i with
  | init rule => exact whenReady_dequeue (sampleSeed_dequeue fun _ => rfl)
  | step => exact whenReady_dequeue (whenConstructed_dequeue fun _ _ => rfl)
  | run n => exact whenReady_dequeue (whenConstructed_dequeue fun _ _ => rfl)
  | rtget rule l c r => exact whenReady_dequeue rfl
  | renderAscii => exact whenReady_dequeue (sampleMatrix_dequeue fun _ => rfl)
  | renderHalf fg bg => exact whenReady_dequeue (sampleMatrix_dequeue fun _ => rfl)
  | renderBraille fg bg => exact whenReady_dequeue (sampleMatrix_dequeue fun _ => rfl)

theorem executeWord_dequeue (q : List HostAction) (s : State) :
    executeWord (dequeue q s) = mapNext (dequeue q) (executeWord s) := by
  refine whenReady_dequeue ?_
  rw [dequeue_ports]
  cases decode s.ports.cmd with
  | error e => rfl
  | ok i => exact exec_dequeue i q s

/-- Other actions behind the one a step takes change nothing of its answer but the queue. -/
theorem step_dequeue {s : State} {a : HostAction} {rest : List HostAction} (hq : s.pending = a :: rest)
    (q : List HostAction) : step (dequeue (a :: q) s) = mapNext (dequeue q) (step s) := by
  rw [step_of_pending hq, step_of_pending (dequeue_pending (a :: q) s)]
  cases a with
  | rst => simp only [takeAction, apply_ite (mapNext (dequeue q))]; rfl
  | command p => exact executeWord_dequeue q (latchPorts p (dequeue rest s))

/-- The host has `more` actions to take after those that wait. -/
def enqueue (more : List HostAction) (s : State) : State := dequeue (s.pending ++ more) s

theorem step_enqueue {s : State} {a : HostAction} {rest : List HostAction} (hq : s.pending = a :: rest)
    (more : List HostAction) : step (enqueue more s) = mapNext (enqueue more) (step s) := by
  rw [enqueue, hq, List.cons_append, step_dequeue hq]
  cases hst : step s with
  | next t =>
    obtain ⟨-, ht⟩ := step_frame hst
    simp [enqueue, ht, hq]
  | fault e => rfl
  | refused e => rfl

/-- A run that takes only actions of the queue does not see what is appended to it. -/
theorem runFor_enqueue {k : Nat} {s : State} (hk : k ≤ s.pending.length) (more : List HostAction) :
    runFor k (enqueue more s) = mapNext (enqueue more) (runFor k s) := by
  induction k generalizing s with
  | zero => rfl
  | succ k ih =>
    obtain ⟨a, rest, hq⟩ := List.exists_cons_of_length_pos (Nat.zero_lt_of_lt hk)
    simp only [runFor, step_enqueue hq]
    cases hst : step s with
    | next t =>
      obtain ⟨-, ht⟩ := step_frame hst
      exact ih (by simp [ht]; omega)
    | fault e => rfl
    | refused e => rfl

theorem transcript_enqueue {k : Nat} {s : State} (hk : k ≤ s.pending.length) (more : List HostAction) :
    transcript k (enqueue more s) = transcript k s := by
  induction k generalizing s with
  | zero => rfl
  | succ k ih =>
    obtain ⟨a, rest, hq⟩ := List.exists_cons_of_length_pos (Nat.zero_lt_of_lt hk)
    have hq' : (enqueue more s).pending = a :: (rest ++ more) := by simp [enqueue, hq]
    simp only [transcript, hq, hq', step_enqueue hq]
    cases hst : step s with
    | next t =>
      obtain ⟨-, ht⟩ := step_frame hst
      have htail : transcript k (enqueue more t) = transcript k t := ih (by simp [ht]; omega)
      cases a with
      | rst => exact htail
      | command p => exact congrArg (t.rsp.toList ++ ·) htail
    | fault e => cases a <;> rfl
    | refused e => cases a <;> rfl

/-- Resets after the last command come after the end, so they are not observed. -/
theorem observation_enqueue_resets (s : State) (n : Nat) :
    observation (enqueue (List.replicate n .rst) s) = observation s := by
  have hend : actionsToEnd (enqueue (List.replicate n .rst) s).pending = actionsToEnd s.pending :=
    actionsToEnd_append_resets s.pending n
  simp only [observation, hend]
  cases hk : actionsToEnd s.pending with
  | none => rfl
  | some k =>
    have hle : k ≤ s.pending.length := actionsToEnd_le hk
    simp only [runFor_enqueue hle, transcript_enqueue hle]
    cases runFor k s <;> rfl

/-- Resets alone have no end (log entry 18). -/
theorem observation_of_resets {s : State} (h : ∀ a ∈ s.pending, a = .rst) : observation s = none := by
  have hend : actionsToEnd s.pending = none := by
    rw [List.eq_replicate_of_mem h, actionsToEnd_resets]
  simp only [observation, hend]

end Sys2Proof.Machine

namespace Sys2Proof.Proofs

open Sys2Proof.Machine

/-- Settles O60: the place of the last command in the queue is the end, and a run up to it does not see the resets
behind it. -/
theorem theEndIsRightAfterTheLastCommand : Obligations.TheEndIsRightAfterTheLastCommand := by
  refine ⟨fun s t front p n hq hrun => ?_, observation_enqueue_resets, fun s => observation_of_resets⟩
  have hk : actionsToEnd s.pending = some (front.length + 1) := hq ▸ actionsToEnd_last front p n
  exact ⟨observation_of_run hk hrun, goodEnd_iff hk hrun⟩

end Sys2Proof.Proofs
end

section
/-! PROOF. Reset from any state (70_reset_and_hazards.md R230): its step does not look at STATUS, RULE or STATE. -/

namespace Sys2Proof.Machine

/-- The counterpart of `step_of_zeroLength`: on a build with cells the host's reset is never refused. -/
theorem step_of_rst {s : State} {rest : List HostAction} (hL : 0 < s.build.L) (hq : s.pending = .rst :: rest) :
    step s = .next (resetBlock (dequeue rest s)) := by
  rw [step_of_pending hq]
  exact if_neg hL.ne'

end Sys2Proof.Machine

namespace Sys2Proof.Proofs

open Sys2Proof.Machine

/-- Settles O52: the step of a reset answers the reset block, whose STATUS, RULE, STATE and response are the same
whatever the block held. -/
theorem resetWorksFromEveryState : Obligations.ResetWorksFromEveryState := by
  intro s rest hL hq
  refine ⟨resetBlock (dequeue rest s), step_of_rst hL hq, ?_⟩
  simp only [resetBlock_status, resetBlock_rule, resetBlock_cells, resetBlock_rsp, and_self]

end Sys2Proof.Proofs
end
